-- ==== Sys2Proof/Word.lean ====
section
/-! DEFINITION. The word types of the unit (spec/00_scope.md R7): bytes and 9-bit addresses. -/

namespace Sys2Proof

/-- A byte: 8 bits, unsigned. "Every register, memory cell, opcode and operand is a byte" (R7). -/
abbrev Byte := BitVec 8

/-- A 9-bit unsigned number: the width of the program counter (R17) and of an address as it is presented
to memory (R33: 0 to 255 selects a cell, 256 and more selects nothing). -/
abbrev Addr := BitVec 9

end Sys2Proof
end

