-- ==== Sys2Proof/Config.lean ====
section
/-! DEFINITION. The implementation parameters of spec/00_scope.md R4, and the three that the spec leaves open. -/

namespace Sys2Proof.Config

/-- `MEM_SIZE`: number of memory cells (R4, fixed). -/
abbrev memSize : Nat := 256

/-- `NREGS`: number of registers (R4, fixed). -/
abbrev nregs : Nat := 8

/-- `SP_INDEX`: the register used as stack pointer, as an operand byte names it (R4, R13). -/
abbrev spIndex : Byte := 7#8

/-- `SP_INIT`: reset value of register 7 (R4, R13). -/
abbrev spInit : Byte := 0xF4#8

/-- `PC_INIT`: reset value of the program counter (R4, R16). -/
abbrev pcInit : Addr := 0#9

/-- `LOAD_BASE`: address of the first loaded byte (R4, R152). -/
abbrev loadBase : Nat := 0

/-- `SETS_PC_BIT`: the opcode bit that says the handler sets the PC, bit 0 being the least significant
(R4, R54; the spec's decision D4, log 4). -/
abbrev setsPcBit : Nat := 4

/-- `FL_INIT`: reset value of the flags register (R4, R25; the spec's decision D6, log 7). -/
abbrev flInit : Byte := 0x00#8

/-- What every cell of memory holds at reset: "zero-initialized" (R25, R30). -/
abbrev memInit : Byte := 0x00#8

/-- `fmt_opcode`: how the host renders `<opcode>` in the error text. OPEN in the spec (R4, R132, D10): no
body, so nothing can be proved of its value (log 10). -/
opaque fmtOpcode : Byte → List Char

/-- `FAULT_EXIT_CODE` less one. The exit code is "any non-zero value" (R4, D10), so it is kept as this
unconstrained number plus one (log 10). -/
opaque faultExitCodePred : Nat

/-- `FAULT_EXIT_CODE`: what the host reports on a fault; some non-zero value, which one is OPEN (R4, R132). -/
def faultExitCode : Nat := faultExitCodePred + 1

/-- The line end the host writes after each numeral of the output: "one per line" (R22), the terminator
itself not given (N18; log 9). -/
opaque lineEnd : List Char

end Sys2Proof.Config
end

