-- ==== Sys2Proof/Syntax.lean ====
section
/-! DEFINITION. The six instructions (spec/30_encoding.md R57), one constructor per row of opcode_table.json. -/

namespace Sys2Proof

/-- An instruction with its operand bytes as they stand in memory: "an operand is one whole byte, used as
it stands" (R55). A register operand is therefore a byte 0 to 255, legal only when 0 to 7 (R12; see
`Instr.wellFormed`): an instruction with an illegal index decodes, runs, and faults in its handler (R76). -/
inductive Instr where
  /-- HLT, `00000001` (R91). -/
  | hlt
  /-- LDI a, b, `10000010 aaaaaaaa bbbbbbbb` (R96): a register index, b immediate. -/
  | ldi (a b : Byte)
  /-- PRN a, `01000111 aaaaaaaa` (R98). -/
  | prn (a : Byte)
  /-- MUL a, b, `10100010 aaaaaaaa bbbbbbbb` (R108): two register indices. -/
  | mul (a b : Byte)
  /-- PSH a, `01000101 aaaaaaaa` (R116). -/
  | psh (a : Byte)
  /-- POP a, `01000110 aaaaaaaa` (R120). -/
  | pop (a : Byte)
  deriving DecidableEq, Repr

end Sys2Proof
end

