-- ==== Sys2Proof/Decode.lean ====
section
/-! DEFINITION. The decoder (spec/30_encoding.md R50 to R60), total on any bytes, and after it the encoder. -/

namespace Sys2Proof

/-! ## The fields of an opcode byte (R54) -/

/-- `operand_count <- op[7:6]` (R54, R58, R73), defined for any byte, known or not. -/
def operandCount (op : Byte) : Nat := (op.extractLsb' 6 2).toNat

/-- `length <- operand_count + 1` (R58, R73). -/
def instrLength (op : Byte) : Nat := operandCount op + 1

/-- `sets_pc <- op[4]` (R54, R58, R74): the handler, not the loop, sets the PC. -/
def setsPc (op : Byte) : Bool := op.getLsbD Config.setsPcBit

/-! ## The Dispatch Table (R57) -/

/-- The six handlers, under the long names the spec's section 4.3 source gives them (R57). -/
inductive Handler where
  | halt | loadImmediate | printRegister | multiply | push | pop
  deriving DecidableEq, Repr

/-- The Dispatch Table: "maps each of the six supported opcodes to its handler", the match on all eight
bits. A constant, not state (R57). -/
def dispatchTable : List (Byte × Handler) :=
  [(0b00000001#8, .halt),
   (0b10000010#8, .loadImmediate),
   (0b01000111#8, .printRegister),
   (0b10100010#8, .multiply),
   (0b01000101#8, .push),
   (0b01000110#8, .pop)]

/-- The handler of an opcode byte, or none for an unknown opcode (R58, R60). -/
def lookup (op : Byte) : Option Handler :=
  (dispatchTable.find? (fun row => row.1 == op)).map (fun row => row.2)

/-- The instruction a handler stands for with the two candidate operand bytes; it ignores those it does
not use (R56). -/
def Handler.instr : Handler → Byte → Byte → Instr
  | .halt, _, _ => .hlt
  | .loadImmediate, a, b => .ldi a b
  | .printRegister, a, _ => .prn a
  | .multiply, a, b => .mul a b
  | .push, a, _ => .psh a
  | .pop, a, _ => .pop a

/-! ## Decoding the three bytes of a step -/

/-- Why an opcode byte is rejected: it is not in the Dispatch Table (R60). -/
inductive DecodeError where
  /-- One of the 250 byte values not in R57, with the byte. -/
  | unknownOpcode (op : Byte)
  deriving DecidableEq, Repr

/-- The instruction of an opcode byte and the two candidate operands fetched after it (R58, R76). -/
def decode (op a b : Byte) : Except DecodeError Instr :=
  match lookup op with
  | some h => .ok (h.instr a b)
  | none => .error (.unknownOpcode op)

/-! ## Decoding a byte string (an image; R50, R63) -/

/-- Why a byte string does not begin with an instruction. -/
inductive ParseError where
  /-- Its first byte is an unknown opcode (R60). -/
  | unknownOpcode (op : Byte)
  /-- It ends before the operand bytes its first byte counts (R50). -/
  | truncated
  deriving DecidableEq, Repr

/-- The first instruction of a byte string and the bytes after it; its length is known from its first
byte (R50). The unit itself decodes the three bytes it fetched (`decode`); this reads an image (log 18). -/
def decodeBytes : List Byte → Except ParseError (Instr × List Byte)
  | [] => .error .truncated
  | op :: rest =>
    match decode op (rest.getD 0 0) (rest.getD 1 0) with
    | .error (.unknownOpcode o) => .error (.unknownOpcode o)
    | .ok i =>
      if rest.length < operandCount op then .error .truncated
      else .ok (i, rest.drop (operandCount op))

/-- The instruction read from an instruction word of the opcode table: bit 0 is the least significant
bit of the first byte, later bytes count on, and every bit from `nbits` up is 0. -/
def decodeTableWord (nbits w : Nat) : Option Instr :=
  let v := w % 2 ^ nbits
  match decode (BitVec.ofNat 8 v) (BitVec.ofNat 8 (v >>> 8)) (BitVec.ofNat 8 (v >>> 16)) with
  | .ok i => some i
  | .error _ => none

/-! ## The encoder (R51 to R53, R57, R61) -/

/-- The bytes of an instruction in ascending address order (R51, R52, R53, R61). -/
def encode : Instr → List Byte
  | .hlt => [0x01#8]
  | .ldi a b => [0x82#8, a, b]
  | .prn a => [0x47#8, a]
  | .mul a b => [0xA2#8, a, b]
  | .psh a => [0x45#8, a]
  | .pop a => [0x46#8, a]

/-- The bytes of a sequence of instructions, one after the other (R63). -/
def encodeProgram : List Instr → List Byte
  | [] => []
  | i :: is => encode i ++ encodeProgram is

end Sys2Proof
end

