-- ==== Sys2Proof/Machine/State.lean ====
section
/-! DEFINITION. The architectural state of the unit (spec/10_state.md R10), its reset value (R25), and the reasons a step can stop. -/

namespace Sys2Proof.Machine

/-- The causes of a fault, each with its information word (spec/60_exceptions.md R131). -/
inductive FaultCause where
  /-- Code 1, raised by step 5 of the Execution Loop: the opcode byte is not one of the six (R75, R60).
  Safe: the spec itself ends the run here. -/
  | unknownOpcode (op : Byte)
  /-- Code 2, raised by steps 1 and 2: the address presented to `read` is 256 or more (R71, R72, R33).
  Safe: it rests on the spec's decisions D2 and D17 (log 2). -/
  | memOutOfRange (address : Addr)
  /-- Code 3, raised by the handlers of LDI, PRN, MUL, PSH, POP: a register index of 8 to 255 (R12).
  Safe: it rests on the spec's decision D2 (log 2). -/
  | regIndexOutOfRange (index : Byte)
  /-- Code 4, raised by the ALU alone when asked for an operation other than ADD or MUL; no step does so
  (R106, D19; log 14). Safe. -/
  | unsupportedAluOperation
  deriving DecidableEq, Repr

/-- Memory as (address, byte) pairs in one canonical form: addresses strictly rising and below 256, no
entry equal to what an unlisted address reads as, 0x00 (R25, R30; log 11). `Memory.wf` says so. -/
abbrev Memory := List Host.Cell

/-- The whole architectural state: "exactly the following; nothing else survives from one instruction to
the next" (R10). -/
structure State where
  /-- `M`, 256 cells of 8 bits (R24, R30). -/
  mem : Memory
  /-- `x[0]` to `x[7]`, also `R0` to `R7`; `x[7]` is the stack pointer (R11, R13). -/
  regs : Vector Byte Config.nregs
  /-- The program counter: the address of the next opcode (R16), 9 bits (R17). -/
  pc : Addr
  /-- The flags register `FL`, layout `00000LGE`; no instruction reads or writes it (R19). -/
  fl : Byte
  /-- `halted`: set only by HLT, terminal (R20). -/
  halted : Bool
  /-- The fault latch: none, or the cause that stopped the unit (R21). -/
  fault : Option FaultCause
  /-- `out`: the values PRN has emitted, oldest first (R22). -/
  out : List Byte
  deriving DecidableEq, Repr

/-- The machine right after reset, before the loader runs (R25, R150). -/
def State.reset : State where
  mem := []
  regs := #v[0x00#8, 0x00#8, 0x00#8, 0x00#8, 0x00#8, 0x00#8, 0x00#8, Config.spInit]
  pc := Config.pcInit
  fl := Config.flInit
  halted := false
  fault := none
  out := []

/-- Why a step ends in a fault. Each constructor carries the cause's information word and the FAULTED
STATE: the state before the step with only the fault latch set (R133; log 5). -/
inductive Fault where
  /-- Raised by the dispatch of an unknown opcode (R75). Safe. -/
  | unknownOpcode (op : Byte) (faulted : State)
  /-- Raised by the fetch of an opcode or candidate operand at an address of 256 or more (R71, R72). Safe. -/
  | memOutOfRange (address : Addr) (faulted : State)
  /-- Raised by the handlers of LDI, PRN, MUL, PSH, POP on a register index above 7 (R12). Safe. -/
  | regIndexOutOfRange (index : Byte) (faulted : State)
  /-- Raised by no step: the ALU is never asked for an unsupported operation (R106). Safe. -/
  | unsupportedAluOperation (faulted : State)
  deriving DecidableEq, Repr

/-- Why the model gives an instruction no meaning. -/
inductive Refusal where
  /-- An instruction whose meaning is not written yet, by its mnemonic. No arm of `exec` answers it. Safe. -/
  | notModelled (mnemonic : String)
  deriving DecidableEq, Repr

end Sys2Proof.Machine
end

