-- ==== Sys2Proof/Machine/Operands.lean ====
section
/-! DEFINITION. The operand forms (spec/30_encoding.md R55): a register index and an 8-bit immediate, each one whole byte. -/

namespace Sys2Proof.Machine

/-- `zext_9(v)`: a byte as a 9-bit unsigned number (R7). The stack presents `x[7]` to memory through it
(R34, R40). -/
def zext9 (v : Byte) : Addr := v.setWidth 9

/-- The register a register-index operand selects: "an index 0 to 7 selects that register. An index 8 to
255 selects nothing" and raises `RegIndexOutOfRange(index)` (R12). All eight bits count. -/
def regIndex (i : Byte) : Except FaultCause (Fin Config.nregs) :=
  if h : i.toNat < Config.nregs then .ok ⟨i.toNat, h⟩ else .error (.regIndexOutOfRange i)

/-- The immediate of LDI: "the unsigned value of the byte, 0 to 255, written to the register unchanged"
(R55). -/
def immediate (b : Byte) : Byte := b

end Sys2Proof.Machine
end

