-- ==== Sys2Proof/Machine/Ops.lean ====
section
/-! DEFINITION. The four operations of the Machine State (spec/00_scope.md R5) over the memory list and the registers, and taking a fault (spec/60_exceptions.md R130). -/

namespace Sys2Proof.Machine

/-! ## The memory list -/

/-- What an address that the list does not hold reads as: the reset contents (R25, R30). -/
def Memory.unlisted : Byte := Config.memInit

/-- The byte at an address. -/
def Memory.get : Memory → Nat → Byte
  | [], _ => Memory.unlisted
  | (k, w) :: m, a => if k = a then w else Memory.get m a

/-- The memory with one byte changed. It keeps the canonical form: writing what an unlisted address reads
as removes the entry. -/
def Memory.put : Memory → Nat → Byte → Memory
  | [], a, v => if v = Memory.unlisted then [] else [(a, v)]
  | (k, w) :: m, a, v =>
    if a < k then (if v = Memory.unlisted then (k, w) :: m else (a, v) :: (k, w) :: m)
    else if a = k then (if v = Memory.unlisted then m else (a, v) :: m)
    else (k, w) :: Memory.put m a v

/-- The canonical form above a bound: each address is at least `lo`, strictly rising and a cell of memory,
and no entry equals what an unlisted address reads as. -/
def Memory.wfFrom : Nat → Memory → Bool
  | _, [] => true
  | lo, (k, w) :: m =>
    decide (lo ≤ k) && decide (k < Config.memSize) && decide (w ≠ Memory.unlisted) && Memory.wfFrom (k + 1) m

/-- The canonical form of memory. -/
def Memory.wf (m : Memory) : Bool := Memory.wfFrom 0 m

/-! ## The four operations (R5): "no other mutation path exists" -/

/-- `MemRead(a, 1)`, the document's `read(address)`: the byte stored at the address; an address of 256 or
more raises `MemOutOfRange(address)` (R31, R33). -/
def memRead (s : State) (a : Addr) : Except FaultCause Byte :=
  if a.toNat < Config.memSize then .ok (Memory.get s.mem a.toNat) else .error (.memOutOfRange a)

/-- `MemWrite(a, 1, v)`, the document's `write(address, value)`: stores the value, overwriting; the same
bounds contract (R32, R33). -/
def memWrite (s : State) (a : Addr) (v : Byte) : Except FaultCause State :=
  if a.toNat < Config.memSize then .ok { s with mem := Memory.put s.mem a.toNat v }
  else .error (.memOutOfRange a)

/-- `register_get(index)`, `x[i]` (R5, R12). -/
def registerGet (s : State) (i : Byte) : Except FaultCause Byte :=
  match regIndex i with
  | .ok r => .ok s.regs[r]
  | .error c => .error c

/-- `register_set(index, value)`, `x[i] <- v` (R5, R12). No register is hardwired (R11). -/
def registerSet (s : State) (i : Byte) (v : Byte) : Except FaultCause State :=
  match regIndex i with
  | .ok r => .ok { s with regs := s.regs.set r v }
  | .error c => .error c

/-- The address of the top of the stack: the content of register 7 (R115), always below 256 (R34). -/
def stackAddress (s : State) : Except FaultCause Addr :=
  match registerGet s Config.spIndex with
  | .ok sp => .ok (zext9 sp)
  | .error c => .error c

/-! ## Taking a fault (R130, R133, R141). There is no trap entry and no return (R141, R142). -/

/-- The code of a cause (R131, the spec's decision D7; log 13). -/
def FaultCause.code : FaultCause → Nat
  | .unknownOpcode _ => 1
  | .memOutOfRange _ => 2
  | .regIndexOutOfRange _ => 3
  | .unsupportedAluOperation => 4

/-- The information word of a cause, as an unsigned number; none for code 4 (R131). -/
def FaultCause.info : FaultCause → Option Nat
  | .unknownOpcode op => some op.toNat
  | .memOutOfRange a => some a.toNat
  | .regIndexOutOfRange i => some i.toNat
  | .unsupportedAluOperation => none

/-- The outcome's reason for a cause and a Faulted state. -/
def faultOf (c : FaultCause) (s : State) : Fault :=
  match c with
  | .unknownOpcode op => .unknownOpcode op s
  | .memOutOfRange a => .memOutOfRange a s
  | .regIndexOutOfRange i => .regIndexOutOfRange i s
  | .unsupportedAluOperation => .unsupportedAluOperation s

/-- The cause of a fault outcome. -/
def Fault.cause : Fault → FaultCause
  | .unknownOpcode op _ => .unknownOpcode op
  | .memOutOfRange a _ => .memOutOfRange a
  | .regIndexOutOfRange i _ => .regIndexOutOfRange i
  | .unsupportedAluOperation _ => .unsupportedAluOperation

/-- The Faulted state a fault outcome leaves. -/
def Fault.faulted : Fault → State
  | .unknownOpcode _ s => s
  | .memOutOfRange _ s => s
  | .regIndexOutOfRange _ s => s
  | .unsupportedAluOperation s => s

/-- `fault <- cause`: the latch is set and nothing else changes (R133). -/
def latch (c : FaultCause) (s : State) : State := { s with fault := some c }

/-- `raise F(info)` from the state before the step: the ONE way a fault is taken. The unit is left Faulted,
every other piece of state as it was (R130, R133). -/
def raise (c : FaultCause) (s : State) : Host.Outcome State Fault Refusal :=
  .fault (faultOf c (latch c s))

/-- The outcome of a handler run on `s`: its new state, or the fault it raised, taken from `s` itself, so
that "an instruction that faults has no effect" (R133). -/
def settle (s : State) (r : Except FaultCause State) : Host.Outcome State Fault Refusal :=
  match r with
  | .ok t => .next t
  | .error c => raise c s

end Sys2Proof.Machine
end

