-- ==== Sys2Proof/Machine/Alu.lean ====
section
/-! DEFINITION. The ALU with its two operations, and the instruction MUL (spec/43_alu_mul.md). -/

namespace Sys2Proof.Machine

/-- An operation name the ALU can be asked for. It supports exactly ADD and MUL; any other name fails
(R106). The name comes from the handler, never from the program's bytes. -/
inductive AluOp where
  | add
  | mul
  /-- Any other operation name; no handler asks for one (R106; log 14). -/
  | other (name : String)
  deriving DecidableEq, Repr

/-- ADD on two register values: exact addition reduced modulo 256 (R107, R109). -/
def aluAdd (x y : Byte) : Byte := BitVec.ofNat 8 ((x.toNat + y.toNat) % 256)

/-- MUL on two register values: exact multiplication reduced modulo 256 (R108, R109). -/
def aluMul (x y : Byte) : Byte := BitVec.ofNat 8 (x.toNat * y.toNat % 256)

/-- `register_a <- f register_a register_b`: the indices are checked a first, then b, before anything is
written, and "no side effects beyond the one register write" (R105). -/
def aluBinary (f : Byte → Byte → Byte) (ra rb : Byte) (s : State) : Except FaultCause State := do
  let x ← registerGet s ra
  let y ← registerGet s rb
  registerSet s ra (f x y)

/-- The ALU's one entry, `apply(operation, register_a, register_b)` (R105, R106). -/
def aluApply (o : AluOp) (ra rb : Byte) (s : State) : Except FaultCause State :=
  match o with
  | .add => aluBinary aluAdd ra rb s
  | .mul => aluBinary aluMul ra rb s
  | .other _ => .error .unsupportedAluOperation

/-- MUL a, b: "invokes ALU MUL on (operand_a, operand_b)" (R108). -/
def execMul (a b : Byte) (s : State) : Host.Outcome State Fault Refusal :=
  settle s (aluApply .mul a b s)

end Sys2Proof.Machine
end

