-- ==== Sys2Proof/Machine/MoveIo.lean ====
section
/-! DEFINITION. Register load and output: LDI and PRN (spec/42_move_io_ldi_prn.md). -/

namespace Sys2Proof.Machine

/-- LDI a, b: `if a > 7 then raise RegIndexOutOfRange(a); x[a] <- b` (R96). -/
def execLdi (a b : Byte) (s : State) : Host.Outcome State Fault Refusal :=
  settle s (registerSet s a (immediate b))

/-- The output interface takes one value; it never stalls, refuses or loses it (R98, R22). -/
def emit (s : State) (v : Byte) : State := { s with out := s.out ++ [v] }

/-- PRN a: `if a > 7 then raise RegIndexOutOfRange(a); out <- out ++ [x[a]]` (R98). -/
def execPrn (a : Byte) (s : State) : Host.Outcome State Fault Refusal :=
  settle s (do
    let v ← registerGet s a
    .ok (emit s v))

end Sys2Proof.Machine
end

