-- ==== Sys2Proof/Machine/Stack.lean ====
section
/-! DEFINITION. The stack instructions PSH and POP (spec/44_stack_psh_pop.md). -/

namespace Sys2Proof.Machine

/-- `x[7] <- (x[7] - 1) mod 256` (R116, R40): the 8-bit wrap of the register, no guard. -/
def spDecrement (s : State) : Except FaultCause State := do
  let sp ← registerGet s Config.spIndex
  registerSet s Config.spIndex (sp - 1)

/-- `x[7] <- (x[7] + 1) mod 256` (R120, R40). -/
def spIncrement (s : State) : Except FaultCause State := do
  let sp ← registerGet s Config.spIndex
  registerSet s Config.spIndex (sp + 1)

/-- PSH a: the index is checked, SP is decremented, the register is read AFTER the decrement, and its value
is written at the decremented SP (R116, R117). -/
def execPsh (a : Byte) (s : State) : Host.Outcome State Fault Refusal :=
  settle s (do
    let _ ← regIndex a
    let s1 ← spDecrement s
    let v ← registerGet s1 a
    let top ← stackAddress s1
    memWrite s1 top v)

/-- POP a: the index is checked, the byte is read at SP BEFORE the increment, SP is incremented, and the
register is written last (R120, R121). -/
def execPop (a : Byte) (s : State) : Host.Outcome State Fault Refusal :=
  settle s (do
    let _ ← regIndex a
    let top ← stackAddress s
    let v ← memRead s top
    let s1 ← spIncrement s
    registerSet s1 a v)

end Sys2Proof.Machine
end

