-- ==== Sys2Proof/Machine/System.lean ====
section
/-! DEFINITION. The system instruction HLT (spec/41_system_hlt.md). -/

namespace Sys2Proof.Machine

/-- HLT: `halted <- true`. No operand use, no register, flag, memory or output written, no fault (R91). -/
def execHlt (s : State) : Host.Outcome State Fault Refusal :=
  settle s (.ok { s with halted := true })

end Sys2Proof.Machine
end

