-- ==== Sys2Proof/Machine/Dispatch.lean ====
section
/-! DEFINITION. Which handler runs for which instruction (spec/40_execution_cycle.md R76, R79). -/

namespace Sys2Proof.Machine

/-- Step 6 of the Execution Loop: the handler of the instruction with its operand bytes (R76). -/
def exec (i : Instr) (s : State) : Host.Outcome State Fault Refusal :=
  match i with
  | .hlt => Sys2Proof.Machine.execHlt s
  | .ldi a b => Sys2Proof.Machine.execLdi a b s
  | .prn a => Sys2Proof.Machine.execPrn a s
  | .mul a b => Sys2Proof.Machine.execMul a b s
  | .psh a => Sys2Proof.Machine.execPsh a s
  | .pop a => Sys2Proof.Machine.execPop a s

end Sys2Proof.Machine
end

