-- ==== Sys2Proof/Machine/Loop.lean ====
section
/-! DEFINITION. The Execution Loop: fetch, decode, dispatch, advance, stop test (spec/40_execution_cycle.md). -/

namespace Sys2Proof.Machine

/-- The opcode byte and the two candidate operands of one step. They are not state: nothing reads them
after the step ends (R10). -/
structure Fetched where
  op : Byte
  a : Byte
  b : Byte
  deriving DecidableEq, Repr

/-- Steps 1 and 2: the opcode byte at `pc`, then UNCONDITIONALLY the bytes at `pc + 1` and `pc + 2`, each
bounds-checked (R71, R72). The additions do not wrap: they are reached only with `pc <= 255`. -/
def fetch (s : State) : Except FaultCause Fetched := do
  let op ← memRead s s.pc
  let a ← memRead s (s.pc + 1)
  let b ← memRead s (s.pc + 2)
  .ok ⟨op, a, b⟩

/-- Step 7: unless the opcode's bit 4 says the handler set the PC, `pc <- pc + len`, in 9 bits (R77, R74,
R73). -/
def advance (op : Byte) (s : State) : State :=
  if setsPc op then s else { s with pc := s.pc + BitVec.ofNat 9 (instrLength op) }

/-- What follows the handler in a step: the advance if it completed; a fault ends the step (R76, R77). -/
def afterHandler (op : Byte) (r : Host.Outcome State Fault Refusal) : Host.Outcome State Fault Refusal :=
  match r with
  | .next t => .next (advance op t)
  | .fault f => .fault f
  | .refused f => .refused f

/-- Steps 3 to 8 on the fetched bytes: decode and dispatch, run the handler, advance. An unknown opcode is
a fault and no handler runs (R73 to R78). -/
def dispatch (s : State) (f : Fetched) : Host.Outcome State Fault Refusal :=
  match decode f.op f.a f.b with
  | .error (.unknownOpcode op) => raise (.unknownOpcode op) s
  | .ok i => afterHandler f.op (exec i s)

/-- One pass of the loop, "defined only in state Running" (R79). -/
def loopPass (s : State) : Host.Outcome State Fault Refusal :=
  match fetch s with
  | .error c => raise c s
  | .ok f => dispatch s f

/-- The unit's step from any state: a pass while Running; in Halted and in Faulted "the unit takes no step
and changes no state until reset" (R70). A Halted unit answers its own state, a Faulted one answers the
latched fault again with its own state (log 6). -/
def unitStep (s : State) : Host.Outcome State Fault Refusal :=
  match s.fault with
  | some c => .fault (faultOf c s)
  | none => if s.halted then .next s else loopPass s

/-- The state with the bytes of `bs` stored from address `a` on, those below 256. -/
def storeBytes (m : Memory) (a : Nat) : List Byte → Memory
  | [] => m
  | v :: vs => storeBytes (if a < Config.memSize then Memory.put m a v else m) (a + 1) vs

end Sys2Proof.Machine
end

