-- ==== Sys2Proof/Machine/Step.lean ====
section
/-! DEFINITION. The step of the unit (spec/40_execution_cycle.md R79), and where it fetches from. -/

namespace Sys2Proof.Machine

/-- One step of the unit. -/
def step (s : State) : Host.Outcome State Fault Refusal := unitStep s

/-- The state with the instruction word `w` of `nbits` bits (higher bits 0) stored as its three bytes at
`pc`, `pc + 1`, `pc + 2`, where `step` fetches its next instruction (R71, R72; log 15). -/
def State.withFetchWord (s : State) (nbits w : Nat) : State :=
  let v := w % 2 ^ nbits
  { s with
    mem := storeBytes s.mem s.pc.toNat [BitVec.ofNat 8 v, BitVec.ofNat 8 (v >>> 8), BitVec.ofNat 8 (v >>> 16)] }

end Sys2Proof.Machine
end

