-- ==== Sys2Proof/Machine/Flags.lean ====
section
/-! DEFINITION. The fields of the flags register FL (spec/10_state.md R19). No instruction computes, writes or reads a flag, so this file holds accessors only. -/

namespace Sys2Proof.Machine

/-- Bit 2 of FL, `L` (less-than), of the layout `00000LGE` (R19). -/
def flagL (s : State) : Bool := s.fl.getLsbD 2

/-- Bit 1 of FL, `G` (greater-than) (R19). -/
def flagG (s : State) : Bool := s.fl.getLsbD 1

/-- Bit 0 of FL, `E` (equal) (R19). -/
def flagE (s : State) : Bool := s.fl.getLsbD 0

end Sys2Proof.Machine
end

