-- ==== Sys2Proof/Machine/HostView.lean ====
section
/-! DEFINITION. What the unit shows the host: the status and out interfaces (spec/00_scope.md R6), and the host's reports (spec/60_exceptions.md R132, spec/10_state.md R22). -/

namespace Sys2Proof.Machine

/-- The three states of the loop (spec/40_execution_cycle.md R70). -/
inductive LoopState where
  | running | halted | faulted
  deriving DecidableEq, Repr

/-- Which of the three states the unit is in: Running is `halted = false` and `fault = none`; Halted is
`halted = true`; Faulted is `fault` set (R70). Both set, which no run reaches (R26), counts as Faulted
(log 6). -/
def loopState (s : State) : LoopState :=
  match s.fault with
  | some _ => .faulted
  | none => if s.halted then .halted else .running

/-- The status interface: `halted` and `fault` (R6). -/
def status (s : State) : Bool × Option FaultCause := (s.halted, s.fault)

/-- The character of a decimal digit. -/
def digitChar (n : Nat) : Char := Char.ofNat (48 + n)

/-- A byte as an unsigned base-10 numeral, no sign, no leading zeros (R22). -/
def decimalNumeral (v : Byte) : List Char :=
  let n := v.toNat
  if n < 10 then [digitChar n]
  else if n < 100 then [digitChar (n / 10), digitChar (n % 10)]
  else [digitChar (n / 100), digitChar (n / 10 % 10), digitChar (n % 10)]

/-- The host's text for `out`: for each value, its numeral and a line end (R22; the line end is
`Config.lineEnd`, log 9). -/
def outText (vs : List Byte) : List Char := vs.flatMap (fun v => decimalNumeral v ++ Config.lineEnd)

/-- A register operand as the spec writes it: `r` and the decimal index; "when an operand byte is not a legal
register index this spec writes the bare number" (spec/30_encoding.md R61). -/
def registerText (i : Byte) : List Char :=
  if i.toNat < Config.nregs then 'r' :: decimalNumeral i else decimalNumeral i

/-- An instruction as the spec writes it (spec/30_encoding.md R61). -/
def instrText : Instr → List Char
  | .hlt => "HLT".toList
  | .ldi a b => "LDI ".toList ++ registerText a ++ ',' :: decimalNumeral b
  | .prn a => "PRN ".toList ++ registerText a
  | .mul a b => "MUL ".toList ++ registerText a ++ ',' :: registerText b
  | .psh a => "PSH ".toList ++ registerText a
  | .pop a => "POP ".toList ++ registerText a

/-- The text the host writes to standard error for a cause: "operation `<opcode>` unknown" for an unknown
opcode; "for the other causes the document fixes no text" (R132; log 10). -/
def errorText : FaultCause → Option (List Char)
  | .unknownOpcode op => some ("operation ".toList ++ Config.fmtOpcode op ++ " unknown".toList)
  | .memOutOfRange _ => none
  | .regIndexOutOfRange _ => none
  | .unsupportedAluOperation => none

/-- The exit code the host reports for a Faulted unit: some non-zero number (R132). None for a unit that
has not faulted: the spec fixes no number for it. -/
def faultExit (s : State) : Option Nat := s.fault.map (fun _ => Config.faultExitCode)

end Sys2Proof.Machine
end

