-- ==== Sys2Proof/Machine/Loader.lean ====
section
/-! DEFINITION. The boundary with the loader: the image (spec/70_reset_and_hazards.md R152, R153) and the load text format (spec/30_encoding.md R64). -/

namespace Sys2Proof.Machine

/-- Load an image of at most 256 bytes at addresses 0 to n - 1. "The loader writes memory only" (R152). A
longer image is not a valid input and is refused (D12; log 12). -/
def loadImage (image : List Byte) (s : State) : Option State :=
  if image.length ≤ Config.memSize then some { s with mem := storeBytes s.mem Config.loadBase image }
  else none

/-- `S0(image)`: the launch state of a run, a function of the image alone (R153). -/
def launch (image : List Byte) : Option State := loadImage image State.reset

/-! ## The load text format (R64) -/

/-- A line without its comment: the characters before the first `#` (R64). -/
def stripComment : List Char → List Char
  | [] => []
  | c :: cs => if c = '#' then [] else c :: stripComment cs

/-- A line without its trailing spaces. Which characters besides its digits and comment a line may hold, and so
what makes a line blank, is not in the spec (R64, N9): DESIGN CHOICE of this model, the space U+0020 alone is
trimmed, so that a tab or a carriage return makes the text refused (log 12, log 23). -/
def trimEnd : List Char → List Char
  | [] => []
  | c :: cs =>
    match trimEnd cs with
    | [] => if c = ' ' then [] else [c]
    | d :: ds => c :: d :: ds

/-- The value of a binary digit. -/
def binaryDigit (c : Char) : Option Bool :=
  if c = '0' then some false else if c = '1' then some true else none

/-- The value of a base-2 numeral, most significant digit first, read on from `acc` (R64, R7). -/
def binaryValue : Nat → List Char → Option Nat
  | acc, [] => some acc
  | acc, c :: cs =>
    match binaryDigit c with
    | some d => binaryValue (2 * acc + d.toNat) cs
    | none => none

/-- "The binary text representation of one byte, parsed as base-2" (R64): eight digits. Any other numeral
is refused (N9, D12; log 12). -/
def parseByte (cs : List Char) : Option Byte :=
  if cs.length = 8 then (binaryValue 0 cs).map (BitVec.ofNat 8) else none

/-- The lines of a text, without their line ends; `cur` is the line read so far, reversed. Which character ends
a line is not in the spec (R64, N9, D12): DESIGN CHOICE of this model, the line feed U+000A alone, the last
line needing none, so that a line ending in carriage return and line feed is refused (log 23). -/
def linesOf : List Char → List Char → List (List Char)
  | cur, [] => [cur.reverse]
  | cur, c :: cs => if c = '\n' then cur.reverse :: linesOf [] cs else linesOf (c :: cur) cs

/-- The bytes of the lines: blank and comment-only lines are skipped, each remaining line is one byte. -/
def parseLines : List (List Char) → Option (List Byte)
  | [] => some []
  | l :: ls =>
    match trimEnd (stripComment l) with
    | [] => parseLines ls
    | d :: ds =>
      match parseByte (d :: ds), parseLines ls with
      | some v, some vs => some (v :: vs)
      | _, _ => none

/-- The image of a program text: the k-th line left gives the byte for `M[k]` (R64). -/
def parseLoadText (text : List Char) : Option (List Byte) := parseLines (linesOf [] text)

/-- A byte as a line of the load format: eight binary digits, most significant first. -/
def binaryNumeral (v : Byte) : List Char :=
  [7, 6, 5, 4, 3, 2, 1, 0].map (fun i => if v.getLsbD i then '1' else '0')

/-- An image as a load text, one byte per line. -/
def renderLoadText : List Byte → List Char
  | [] => []
  | v :: vs => binaryNumeral v ++ '\n' :: renderLoadText vs

end Sys2Proof.Machine
end

