-- ==== Sys2Proof/WellFormed.lean ====
section
/-! DEFINITION. When an instruction's operands are legal: a register index is 0 to 7 (spec/30_encoding.md R55). -/

namespace Sys2Proof

/-- A register-index operand "is legal only when 0 to 7" (R55, R12). -/
def legalIndex (i : Byte) : Bool := decide (i.toNat < Config.nregs)

/-- Every register-index operand of the instruction is legal. The immediate of LDI is any byte (R55). -/
def Instr.wellFormed : Instr → Bool
  | .hlt => true
  | .ldi a _ => legalIndex a
  | .prn a => legalIndex a
  | .mul a b => legalIndex a && legalIndex b
  | .psh a => legalIndex a
  | .pop a => legalIndex a

end Sys2Proof
end

