-- ==== Sys2Proof/Safety.lean ====
section
/-! DEFINITION. What counts as a legal state and a good end of a run, and runs of handlers alone (spec/10_state.md R26, spec/70_reset_and_hazards.md R155). -/

namespace Sys2Proof.Machine

/-- The unit is Running: it may take a step (R70, R79). -/
abbrev Running (s : State) : Prop := s.halted = false ∧ s.fault = none

/-- A run has ended well: Halted, with no fault (R155). -/
abbrev EndedWell (s : State) : Prop := s.halted = true ∧ s.fault = none

/-- The invariant of every state the unit reaches (R26): memory canonical and 256 cells (a, b), `pc` 0 to
256 (c), `FL` at its reset value (d), never both halted and faulted (e). -/
structure LegalState (s : State) : Prop where
  /-- R26 (a), (b): the memory list is canonical and lists cells of memory only. -/
  memory : Memory.wf s.mem = true
  /-- R26 (c). -/
  pcRange : s.pc.toNat ≤ Config.memSize
  /-- R26 (d). -/
  flags : s.fl = Config.flInit
  /-- R26 (e). -/
  oneEnd : s.halted = false ∨ s.fault = none

/-- `n` steps from a state, ending at the first fault or refusal: the loop repeated (R70, R78, R153). -/
def runSteps : Nat → State → Host.Outcome State Fault Refusal
  | 0, s => .next s
  | n + 1, s =>
    match step s with
    | .next t => runSteps n t
    | .fault f => .fault f
    | .refused q => .refused q

/-- The three bytes a step fetches: `op` at `pc`, then the candidate operands `a` and `b` (R71, R72). The
addresses do not wrap: the first read fails unless `pc` is below 256. -/
abbrev BytesAt (s : State) (op a b : Byte) : Prop :=
  memRead s s.pc = .ok op ∧ memRead s (s.pc + 1) = .ok a ∧ memRead s (s.pc + 2) = .ok b

/-- Every register but those named reads as before. -/
abbrev RegistersKeptBut (written : List Byte) (s t : State) : Prop :=
  ∀ r, r ∉ written → registerGet t r = registerGet s r

/-- Every byte of memory reads as before, but for the named addresses. -/
abbrev MemoryKeptBut (stored : List Addr) (s t : State) : Prop :=
  ∀ x, x ∉ stored → memRead t x = memRead s x

/-- The flags, the halted flag, the fault latch and the program counter are unchanged. -/
abbrev ControlKept (s t : State) : Prop :=
  t.fl = s.fl ∧ t.halted = s.halted ∧ t.fault = s.fault ∧ t.pc = s.pc

/-- Run the handlers of a list of instructions one after the other, without fetching or advancing; the
first fault or refusal ends it. -/
def execAll : List Instr → State → Host.Outcome State Fault Refusal
  | [], s => .next s
  | i :: is, s =>
    match exec i s with
    | .next t => execAll is t
    | .fault f => .fault f
    | .refused f => .refused f

end Sys2Proof.Machine
end

