-- ==== Sys2Proof/Certificates/Slice0/Obligations.lean ====
section
/-! DEFINITION. The statements for the provers. Each docstring names the sentence of spec/ it formalises; where a clause rests on a decision of the spec (D<n>) or of this model (log <n>) it says so. -/

open Sys2Proof Sys2Proof.Machine

/-! ## Instructions: completion, result and frame -/

/-- R91: "sets Halted = true. No operand use"; HLT itself raises no fault and writes nothing else. -/
def Obligations.HltCompletesAndOnlyHalts : Prop :=
  ∀ s : State, ∃ t, exec .hlt s = .next t ∧ t.halted = true ∧
    RegistersKeptBut [] s t ∧ MemoryKeptBut [] s t ∧
    t.fl = s.fl ∧ t.fault = s.fault ∧ t.pc = s.pc ∧ t.out = s.out

/-- R96, legal index: `x[a] <- b` for every register 0 to 7, the stack pointer and the reserved registers 5 and
6 among them; nothing else changes. That registers 5 and 6 are ordinary storage is the spec's decision D16 (log
19). -/
def Obligations.LdiWritesImmediate : Prop :=
  ∀ (a b : Byte) (s : State), a.toNat ≤ 7 → ∃ t, exec (.ldi a b) s = .next t ∧
    registerGet t a = .ok b ∧
    RegistersKeptBut [a] s t ∧ MemoryKeptBut [] s t ∧ ControlKept s t ∧ t.out = s.out

/-- R98, legal index: `out <- out ++ [x[a]]`; nothing else changes. That the output is a sequence of bytes that
never stalls is the spec's decision D9 (log 9). -/
def Obligations.PrnEmitsRegister : Prop :=
  ∀ (a : Byte) (s : State), a.toNat ≤ 7 → ∃ t v, exec (.prn a) s = .next t ∧
    registerGet s a = .ok v ∧ t.out = s.out ++ [v] ∧
    RegistersKeptBut [] s t ∧ MemoryKeptBut [] s t ∧ ControlKept s t

/-- R108, legal indices: `x[a] <- (x[a] * x[b]) mod 256`, both read before the write; no flag and nothing else
changes. That registers are 8 bits, so that the modulus is 256, is the spec's decision D1 (log 1). -/
def Obligations.MulWritesProductModulo256 : Prop :=
  ∀ (a b : Byte) (s : State), a.toNat ≤ 7 → b.toNat ≤ 7 → ∃ t x y z, exec (.mul a b) s = .next t ∧
    registerGet s a = .ok x ∧ registerGet s b = .ok y ∧ registerGet t a = .ok z ∧
    z.toNat = x.toNat * y.toNat % 256 ∧
    RegistersKeptBut [a] s t ∧ MemoryKeptBut [] s t ∧ ControlKept s t ∧ t.out = s.out

/-- R116, R117, legal index, canonical memory: SP is decremented modulo 256, the register is read after the
decrement (so PSH r7 pushes the decremented SP), and its value is stored at the decremented SP; every
other byte and register is unchanged. -/
def Obligations.PshDecrementsThenStores : Prop :=
  ∀ (a : Byte) (s : State), Memory.wf s.mem = true → a.toNat ≤ 7 → ∃ t sp v, exec (.psh a) s = .next t ∧
    registerGet s 7#8 = .ok sp ∧ registerGet t 7#8 = .ok (sp - 1) ∧
    (a = 7#8 → v = sp - 1) ∧ (a ≠ 7#8 → registerGet s a = .ok v) ∧
    memRead t (zext9 (sp - 1)) = .ok v ∧
    RegistersKeptBut [7#8] s t ∧ MemoryKeptBut [zext9 (sp - 1)] s t ∧ ControlKept s t ∧ t.out = s.out

/-- R120, R121, legal index: the byte at SP before the increment goes to x[a], written last, and SP is
incremented modulo 256 (POP r7 therefore leaves the byte read in r7); memory is unchanged. -/
def Obligations.PopLoadsThenIncrements : Prop :=
  ∀ (a : Byte) (s : State), a.toNat ≤ 7 → ∃ t sp v, exec (.pop a) s = .next t ∧
    registerGet s 7#8 = .ok sp ∧ memRead s (zext9 sp) = .ok v ∧ registerGet t a = .ok v ∧
    (a ≠ 7#8 → registerGet t 7#8 = .ok (sp + 1)) ∧
    RegistersKeptBut [7#8, a] s t ∧ MemoryKeptBut [] s t ∧ ControlKept s t ∧ t.out = s.out

/-- Where the five register instructions stop: on an index of 8 to 255, checked operand a first, then b,
before anything is written. Rests on the spec's decisions D2, D5, D8 (log 2, 5, 8). -/
def Obligations.IllegalIndexFaultsWithoutEffect : Prop :=
  ∀ (a b : Byte) (s : State),
    (7 < a.toNat → ∀ i ∈ [Instr.ldi a b, .prn a, .mul a b, .psh a, .pop a],
      exec i s = .fault (.regIndexOutOfRange a { s with fault := some (.regIndexOutOfRange a) })) ∧
    (a.toNat ≤ 7 → 7 < b.toNat →
      exec (.mul a b) s = .fault (.regIndexOutOfRange b { s with fault := some (.regIndexOutOfRange b) }))

/-- R16: the handlers neither read nor write `pc`; it still holds the current instruction's address when
the handler returns, is 0 at reset, and is where the opcode is fetched from. -/
def Obligations.NoHandlerReadsOrWritesPc : Prop :=
  State.reset.pc = 0 ∧
  (∀ (s : State) (f : Fetched), fetch s = .ok f → memRead s s.pc = .ok f.op) ∧
  (∀ (i : Instr) (s t : State), exec i s = .next t → t.pc = s.pc) ∧
  (∀ (i : Instr) (s t : State) (p : Addr), exec i s = .next t → exec i { s with pc := p } = .next { t with pc := p }) ∧
  (∀ (i : Instr) (s : State) (f : Fault) (p : Addr), exec i s = .fault f →
    ∃ g, exec i { s with pc := p } = .fault g ∧ g.cause = f.cause)

/-- R108: "`MUL a,b` and `MUL b,a` compute the same value but put it in different registers". -/
def Obligations.MulIsCommutative : Prop :=
  ∀ (a b : Byte) (s t u : State), exec (.mul a b) s = .next t → exec (.mul b a) s = .next u →
    registerGet t a = registerGet u b

/-! ## The ALU -/

/-- R107: ADD on two legal registers is exact addition modulo 256 into the first, and writes nothing else
(R105). No opcode reaches it (the spec's decision D20; log 16). That registers are 8 bits, so that the sum is
taken modulo 256, is the spec's decision D1 (log 1). -/
def Obligations.AluAddWrapsModulo256 : Prop :=
  ∀ (a b : Byte) (s : State), a.toNat ≤ 7 → b.toNat ≤ 7 → ∃ t x y z, aluApply .add a b s = .ok t ∧
    registerGet s a = .ok x ∧ registerGet s b = .ok y ∧ registerGet t a = .ok z ∧
    z.toNat = (x.toNat + y.toNat) % 256 ∧
    RegistersKeptBut [a] s t ∧ MemoryKeptBut [] s t ∧ ControlKept s t ∧ t.out = s.out

/-- R106: the ALU fails on any other operation name, and no step of the unit, whatever the memory, raises
that failure (the spec's decision D19; log 14). -/
def Obligations.UnsupportedAluOperationIsUnreachable : Prop :=
  (∀ (n : String) (a b : Byte) (s : State), aluApply (.other n) a b s = .error .unsupportedAluOperation) ∧
  (∀ (s : State) (f : Fault), s.fault = none → step s = .fault f → f.cause ≠ .unsupportedAluOperation)

/-! ## Memory and registers -/

/-- R32: a write stores the value at its address and "changes that one cell and nothing else". -/
def Obligations.WriteChangesThatCellOnly : Prop :=
  ∀ (s : State) (a : Addr) (v : Byte), Memory.wf s.mem = true → a.toNat ≤ 255 → ∃ t, memWrite s a v = .ok t ∧
    memRead t a = .ok v ∧ MemoryKeptBut [a] s t ∧ RegistersKeptBut [] s t ∧ ControlKept s t ∧ t.out = s.out

/-- R33: an address 0 to 255 selects a cell; 256 and more selects nothing, does not wrap and faults. Rests on
the spec's decision D2 (log 2). -/
def Obligations.AddressesFrom256Fault : Prop :=
  ∀ (s : State) (a : Addr) (v : Byte),
    (a.toNat ≤ 255 → (∃ w, memRead s a = .ok w) ∧ ∃ t, memWrite s a v = .ok t) ∧
    (256 ≤ a.toNat → memRead s a = .error (.memOutOfRange a) ∧ memWrite s a v = .error (.memOutOfRange a))

/-- R11, R12: each of the eight registers holds what was last written to it, none is hardwired, and writing one
leaves the other seven; an index of 8 to 255 is rejected, never taken modulo 8. Rests on D2 (log 2). That
registers 5 and 6 are ordinary storage is the spec's decision D16 (log 19). -/
def Obligations.RegistersAreOrdinaryStorage : Prop :=
  ∀ (s : State) (i v : Byte),
    (i.toNat ≤ 7 → ∃ t, registerSet s i v = .ok t ∧ registerGet t i = .ok v ∧ RegistersKeptBut [i] s t ∧
      MemoryKeptBut [] s t ∧ ControlKept s t ∧ t.out = s.out) ∧
    (7 < i.toNat → registerGet s i = .error (.regIndexOutOfRange i) ∧ registerSet s i v = .error (.regIndexOutOfRange i))

/-- R13: register 7 is the stack pointer, 0xF4 at reset, used implicitly by PSH and POP, and otherwise an
ordinary register that every instruction taking an index accepts: LDI sets it, PRN outputs it, MUL
multiplies it, PSH pushes it (after its own decrement, R117), POP loads it. That the product is taken modulo
256 (R108) rests on the spec's decision D1, registers of exactly 8 bits (log 1), not on R13. -/
def Obligations.RegisterSevenIsTheStackPointer : Prop :=
  registerGet State.reset 7#8 = .ok 0xF4#8 ∧
  (∀ (r : Byte) (s : State), r.toNat < 7 → ∃ t u sp, registerGet s 7#8 = .ok sp ∧
    exec (.psh r) s = .next t ∧ registerGet t 7#8 = .ok (sp - 1) ∧
    exec (.pop r) s = .next u ∧ registerGet u 7#8 = .ok (sp + 1)) ∧
  (∀ (s : State) (v : Byte), ∃ t, exec (.ldi 7#8 v) s = .next t ∧ registerGet t 7#8 = .ok v) ∧
  (∀ s : State, ∃ t sp, registerGet s 7#8 = .ok sp ∧ exec (.prn 7#8) s = .next t ∧ t.out = s.out ++ [sp]) ∧
  (∀ (s : State) (b : Byte), b.toNat ≤ 7 → ∃ t sp y z, registerGet s 7#8 = .ok sp ∧ registerGet s b = .ok y ∧
    exec (.mul 7#8 b) s = .next t ∧ registerGet t 7#8 = .ok z ∧ z.toNat = sp.toNat * y.toNat % 256) ∧
  (∀ s : State, Memory.wf s.mem = true → ∃ t sp, registerGet s 7#8 = .ok sp ∧ exec (.psh 7#8) s = .next t ∧
    memRead t (zext9 (sp - 1)) = .ok (sp - 1)) ∧
  (∀ s : State, ∃ t sp v, registerGet s 7#8 = .ok sp ∧ memRead s (zext9 sp) = .ok v ∧
    exec (.pop 7#8) s = .next t ∧ registerGet t 7#8 = .ok v) ∧
  (∀ (s : State) (r v : Byte), r.toNat ≤ 7 → ∃ t, execAll [.ldi r v, .prn r] s = .next t ∧ t.out = s.out ++ [v])

/-- R109: the arithmetic of the unit: the ALU's ADD and MUL, the `+ 1` of POP and the `- 1` of PSH are exact
integer operations reduced modulo 256; nothing traps on overflow and no overflow indication is kept; the
program counter's are exact, never reduced modulo 256. The 8-bit registers are the spec's decision D1 (log 1),
the program counter that does not wrap D3 (log 3). -/
def Obligations.ArithmeticIsExactThenReduced : Prop :=
  (∀ x y : Byte, (aluAdd x y).toNat = (x.toNat + y.toNat) % 256 ∧ (aluMul x y).toNat = x.toNat * y.toNat % 256) ∧
  (∀ o ∈ [AluOp.add, .mul], ∀ (a b : Byte) (s : State), a.toNat ≤ 7 → b.toNat ≤ 7 →
    ∃ t, aluApply o a b s = .ok t ∧ RegistersKeptBut [a] s t ∧ MemoryKeptBut [] s t ∧ ControlKept s t ∧ t.out = s.out) ∧
  (∀ s : State, ∃ t u sp m p, registerGet s 7#8 = .ok sp ∧ spDecrement s = .ok t ∧ spIncrement s = .ok u ∧
    registerGet t 7#8 = .ok m ∧ registerGet u 7#8 = .ok p ∧
    (m.toNat : Int) = ((sp.toNat : Int) - 1) % 256 ∧ (p.toNat : Int) = ((sp.toNat : Int) + 1) % 256) ∧
  (∀ (s : State) (f : Fetched), fetch s = .ok f →
    (s.pc + 1).toNat = s.pc.toNat + 1 ∧ (s.pc + 2).toNat = s.pc.toNat + 2 ∧
    (setsPc f.op = false → (advance f.op s).pc.toNat = s.pc.toNat + instrLength f.op))

/-- R40: stack-pointer arithmetic wraps modulo 256. The address presented is always the 8-bit content of R7;
after N pushes SP = initial SP − N (mod 256); at EVERY SP a PSH and a POP of a legal register complete, with
no overflow or underflow fault, at SP − 1 and at SP (mod 256); PSH at SP = 0 writes M[0xFF], and POP at
SP = 0xFF reads M[0xFF] and leaves SP = 0. (POP into R7 ends with the byte read there, R121.) -/
def Obligations.StackPointerWrapsModulo256 : Prop :=
  ∀ s : State, Memory.wf s.mem = true → ∀ sp, registerGet s 7#8 = .ok sp →
    stackAddress s = .ok (zext9 sp) ∧
    (∀ rs : List Byte, (∀ r ∈ rs, r.toNat ≤ 7) → ∃ t sp', execAll (rs.map Instr.psh) s = .next t ∧
      registerGet t 7#8 = .ok sp' ∧ (sp'.toNat : Int) = ((sp.toNat : Int) - rs.length) % 256) ∧
    (∀ a : Byte, a.toNat ≤ 7 → ∃ t v sp', exec (.psh a) s = .next t ∧
      registerGet t 7#8 = .ok sp' ∧ (sp'.toNat : Int) = ((sp.toNat : Int) - 1) % 256 ∧
      registerGet t a = .ok v ∧ memRead t (zext9 sp') = .ok v) ∧
    (∀ a : Byte, a.toNat ≤ 7 → ∃ t v, exec (.pop a) s = .next t ∧
      memRead s (zext9 sp) = .ok v ∧ registerGet t a = .ok v ∧
      (a ≠ 7#8 → ∃ sp', registerGet t 7#8 = .ok sp' ∧ sp'.toNat = (sp.toNat + 1) % 256)) ∧
    (∀ a : Byte, a.toNat ≤ 7 → sp = 0x00#8 → ∃ t v, exec (.psh a) s = .next t ∧
      registerGet t 7#8 = .ok 0xFF#8 ∧ registerGet t a = .ok v ∧ memRead t 0xFF#9 = .ok v) ∧
    (∀ a : Byte, a.toNat ≤ 7 → sp = 0xFF#8 → ∃ t v, exec (.pop a) s = .next t ∧
      memRead s 0xFF#9 = .ok v ∧ registerGet t a = .ok v ∧ (a ≠ 7#8 → registerGet t 7#8 = .ok 0x00#8))

/-- R122: N pushes followed by N pops into distinct registers, none of them R7: last in, first out, and SP
returns to its initial value. Said of the handlers run one after the other, so that no code byte is
overwritten. -/
def Obligations.PushPopRoundTripIsLifo : Prop :=
  ∀ (s : State) (rs ds : List Byte), Memory.wf s.mem = true →
    (∀ r ∈ rs, r.toNat < 7) → (∀ d ∈ ds, d.toNat < 7) → ds.Nodup → rs.length = ds.length →
    ∃ t, execAll (rs.map Instr.psh ++ ds.map Instr.pop) s = .next t ∧
      (∀ (k : Nat) (d r : Byte), ds[k]? = some d → rs.reverse[k]? = some r → registerGet t d = registerGet s r) ∧
      registerGet t 7#8 = registerGet s 7#8 ∧ RegistersKeptBut ds s t ∧ ControlKept s t ∧ t.out = s.out

/-! ## Decoding and encoding -/

/-- R51 to R53, R57: words written out bit by bit from the encoding table decode to their instructions. -/
def Obligations.WrittenOutWordsDecode : Prop :=
  decode 0b00000001#8 0b11111111#8 0b00000000#8 = .ok .hlt ∧
  decode 0b10000010#8 0b00000011#8 0b11111111#8 = .ok (.ldi 3#8 255#8) ∧
  decode 0b01000111#8 0b00000111#8 0b00000001#8 = .ok (.prn 7#8) ∧
  decode 0b10100010#8 0b00000001#8 0b00000010#8 = .ok (.mul 1#8 2#8) ∧
  decode 0b01000101#8 0b00000110#8 0b01000110#8 = .ok (.psh 6#8) ∧
  decode 0b01000110#8 0b00000101#8 0b00000000#8 = .ok (.pop 5#8)

/-- R73: "`operand_count = (opcode >> 6) & 0b11`; the instruction length is `operand_count + 1`". -/
def Obligations.LengthIsTopTwoBitsPlusOne : Prop :=
  ∀ op : Byte, operandCount op = ((op >>> 6) &&& 0b11#8).toNat ∧ instrLength op = operandCount op + 1

/-- R57: the Dispatch Table, row by row: opcode byte, handler, bits 7:6, bit 5, bit 4, bits 3:0 and length; and
no other byte has a handler. Which bit is bit 4 is the spec's decision D4 (log 4). -/
def Obligations.DispatchTableIsTheSixRows : Prop :=
  (∀ row ∈ [(0b00000001#8, Handler.halt, 0, false, 0b0001#4, 1), (0b10000010#8, .loadImmediate, 2, false, 0b0010#4, 3),
      (0b01000111#8, .printRegister, 1, false, 0b0111#4, 2), (0b10100010#8, .multiply, 2, true, 0b0010#4, 3),
      (0b01000101#8, .push, 1, false, 0b0101#4, 2), (0b01000110#8, .pop, 1, false, 0b0110#4, 2)],
    lookup row.1 = some row.2.1 ∧ operandCount row.1 = row.2.2.1 ∧ row.1.getLsbD 5 = row.2.2.2.1 ∧
    setsPc row.1 = false ∧ row.1.extractLsb' 0 4 = row.2.2.2.2.1 ∧ instrLength row.1 = row.2.2.2.2.2) ∧
  (∀ op : Byte, op ∉ [0x01#8, 0x82#8, 0x47#8, 0xA2#8, 0x45#8, 0x46#8] → lookup op = none)

/-- R60: exactly 250 byte values are unknown opcodes; among them 0x00, every byte whose count field is 3 and
every byte with bit 4 set. Bit 4 is the spec's decision D4 (log 4). -/
def Obligations.TwoHundredFiftyOpcodesAreUnknown : Prop :=
  ((List.range 256).filter (fun n => lookup (BitVec.ofNat 8 n) == none)).length = 250 ∧
  lookup 0x00#8 = none ∧ (∀ op : Byte, operandCount op = 3 → lookup op = none) ∧
  (∀ op : Byte, setsPc op = true → lookup op = none)

/-- R56: candidate operand bytes a format does not use have no effect on the instruction decoded: with
format F0 both, with format F1 the second. -/
def Obligations.UnusedCandidateOperandsAreIgnored : Prop :=
  ∀ op a b a' b' : Byte,
    (operandCount op = 0 → decode op a b = decode op a' b') ∧
    (operandCount op = 1 → decode op a b = decode op a b')

/-- Decode and encode agree: from the bytes of any instruction, every operand at every value, followed by
anything, the decoder reads that instruction back and leaves what follows (R50 to R53). -/
def Obligations.DecodeReadsEncodeBack : Prop :=
  ∀ (i : Instr) (rest : List Byte), decodeBytes (encode i ++ rest) = .ok (i, rest)

/-- The other direction: whatever byte string decodes is the encoding of what was read, followed by what was
left, so each instruction has one spelling (R50 to R53, R57). That a string cut inside an instruction does
not decode, on which this rests, is the model's own choice (log 18), not the spec's. -/
def Obligations.DecodedBytesAreTheEncoding : Prop :=
  ∀ (bs rest : List Byte) (i : Instr), decodeBytes bs = .ok (i, rest) → bs = encode i ++ rest

/-- Decode and encode agree through memory: load the encoding of a program at 0; at the address where its k-th
instruction was put, the unit fetches and decodes exactly that instruction, for every program whose opcodes lie
at 253 or below (R35, R71, R72, R152, R153). An opcode at 254 or 255 is left out because the unconditional
operand fetch faults there, the spec's decisions D2 and D17 (log 2). -/
def Obligations.LoadedProgramIsFetchedBack : Prop :=
  ∀ (p q : List Instr) (i : Instr) (s t : State), Memory.wf s.mem = true →
    loadImage (encodeProgram (p ++ i :: q)) s = some t → (encodeProgram p).length ≤ 253 →
    ∃ f, fetch { t with pc := BitVec.ofNat 9 (encodeProgram p).length } = .ok f ∧ decode f.op f.a f.b = .ok i

/-! ## The step -/

/-- A step runs the decoded instruction: while Running, when the three fetched bytes decode to `i`, the step is
`exec i`, then the advance of the program counter by the instruction length unless the opcode's bit 4 says the
handler set it (R76, R77; the bit's place is D4, log 4). Illegal indices are not shut out. The 9-bit program
counter is the spec's decision D3 (log 3), bit 4 its decision D4 (log 4). -/
def Obligations.StepRunsDecodedInstruction : Prop :=
  ∀ (s : State) (op a b : Byte) (i : Instr), Running s → BytesAt s op a b → decode op a b = .ok i →
    (∀ t, exec i s = .next t →
      step s = .next { t with pc := if setsPc op then t.pc else t.pc + BitVec.ofNat 9 (instrLength op) }) ∧
    (∀ f, exec i s = .fault f → step s = .fault f) ∧
    (∀ q, exec i s ≠ .refused q)

/-- R75: an unknown opcode is fatal: no handler runs and pc is not advanced (the Faulted state is the state
before the step with only the latch set), its error text is reported, the exit code is not zero, and no
further instruction runs; a known one selects its handler. That the fault outcome carries the Faulted state
rests on the spec's decision D5 (log 5), that a Faulted unit's step answers a fault is the model's choice
(log 6), and the host's text and exit code are left open by D10 but for what is said here (log 10). -/
def Obligations.UnknownOpcodeIsFatal : Prop :=
  ∀ (s : State) (op a b : Byte), Running s → BytesAt s op a b →
    (op ∉ [0x01#8, 0x82#8, 0x47#8, 0xA2#8, 0x45#8, 0x46#8] → ∃ f, step s = .fault f ∧
      f.cause = .unknownOpcode op ∧ f.faulted = { s with fault := some (.unknownOpcode op) } ∧
      errorText f.cause = some ("operation ".toList ++ Config.fmtOpcode op ++ " unknown".toList) ∧
      (∃ n, faultExit f.faulted = some n ∧ n ≠ 0) ∧ ∀ t, step f.faulted ≠ .next t) ∧
    (op ∈ [0x01#8, 0x82#8, 0x47#8, 0xA2#8, 0x45#8, 0x46#8] → ∃ h, lookup op = some h ∧
      step s = afterHandler op (exec (h.instr a b) s))

/-- R71, R72, R79: with pc = 256 the opcode fetch faults at 256; with pc = 254 or 255 an operand fetch does,
whatever the bytes, so an unknown opcode or a HLT there reports MemOutOfRange(256) (R135); only the latch
changes (R133). Rests on the spec's decisions D2 and D17 (log 2), D3 (log 3), D8 (log 8), and D5 (log 5) for
the state the fault carries. -/
def Obligations.FetchPastMemoryFaults : Prop :=
  ∀ s : State, Running s →
    (256 ≤ s.pc.toNat → step s = .fault (.memOutOfRange s.pc { s with fault := some (.memOutOfRange s.pc) })) ∧
    (s.pc.toNat = 254 ∨ s.pc.toNat = 255 →
      step s = .fault (.memOutOfRange 256#9 { s with fault := some (.memOutOfRange 256#9) }))

/-- R134: a Running unit's step completes exactly when its opcode is at 253 or below, the opcode is one of
the six and every register index is 0 to 7. Rests on the spec's decisions D2, D17 (log 2). -/
def Obligations.StepCompletesExactlyOnLegalInstructions : Prop :=
  ∀ s : State, Running s →
    ((∃ t, step s = .next t) ↔
      s.pc.toNat ≤ 253 ∧ ∃ op a b i, BytesAt s op a b ∧ decode op a b = .ok i ∧ i.wellFormed = true)

/-- R133: a faulting step changes nothing but the latch. Rests on the spec's decision D5 (log 5). -/
def Obligations.FaultsArePrecise : Prop :=
  ∀ (s : State) (f : Fault), s.fault = none → step s = .fault f → f.faulted = { s with fault := some f.cause }

/-- R81: execution starts at pc = 0 and proceeds at strictly ascending addresses, each pc the previous one
plus 1, 2 or 3, until HLT halts the unit or a step faults. That pc does not wrap from 255 to 0 is the spec's
decision D3 (log 3). -/
def Obligations.ExecutionAscendsByOneTwoOrThree : Prop :=
  State.reset.pc = 0 ∧
  (∀ s t : State, Running s → step s = .next t →
    t.pc.toNat = s.pc.toNat + 1 ∨ t.pc.toNat = s.pc.toNat + 2 ∨ t.pc.toNat = s.pc.toNat + 3) ∧
  (∀ s t : State, Running s → step s = .next t → ¬ Running t → memRead s s.pc = .ok 0x01#8)

/-- R18: a completed step adds the instruction length to pc: HLT 1, PRN, PSH and POP 2, LDI and MUL 3. That pc
is 9 bits, does not wrap from 255 to 0 and reaches at most 256 (R17, R77) rests on the spec's decision D3
(log 3). -/
def Obligations.StepAddsInstructionLength : Prop :=
  ∀ (s t : State) (op : Byte), Running s → memRead s s.pc = .ok op → step s = .next t →
    t.pc.toNat = s.pc.toNat + instrLength op ∧ t.pc.toNat ≤ 256 ∧
    (op = 0x01#8 → instrLength op = 1) ∧ (op ∈ [0x47#8, 0x45#8, 0x46#8] → instrLength op = 2) ∧
    (op ∈ [0x82#8, 0xA2#8] → instrLength op = 3)

/-- R20: halted is false at reset, set to true only by HLT, never cleared, and no instruction reads it. -/
def Obligations.HaltedIsSetOnlyByHltAndNeverCleared : Prop :=
  State.reset.halted = false ∧
  (∀ s t : State, Running s → step s = .next t → (t.halted = true ↔ memRead s s.pc = .ok 0x01#8)) ∧
  (∀ s t : State, s.halted = true → step s = .next t → t = s) ∧
  (∀ (i : Instr) (s t : State) (h : Bool), exec i s = .next t →
    ∃ h', exec i { s with halted := h } = .next { t with halted := h' }) ∧
  (∀ (i : Instr) (s : State) (f : Fault) (h : Bool), exec i s = .fault f →
    ∃ g, exec i { s with halted := h } = .fault g ∧ g.cause = f.cause)

/-- R155: a step ends the run well exactly when it executes a HLT at an address 0 to 253; then pc is that
address plus 1 and nothing else has changed. That a HLT at 254 or 255 faults instead rests on the spec's
decisions D2 and D17 (log 2). -/
def Obligations.RunEndsWellExactlyOnHlt : Prop :=
  ∀ s : State, Running s →
    ((∃ t, step s = .next t ∧ EndedWell t) ↔ memRead s s.pc = .ok 0x01#8 ∧ s.pc.toNat ≤ 253) ∧
    (∀ t, step s = .next t → EndedWell t → t = { s with halted := true, pc := s.pc + 1 })

/-- R70: in Halted and in Faulted no state changes. How a stopped unit's step answers (its own state; the
latched fault with its own state) is the model's choice (log 6). The Faulted state itself is the spec's decision
D5 (log 5). -/
def Obligations.StoppedUnitChangesNothing : Prop :=
  (∀ s : State, EndedWell s → step s = .next s) ∧
  (∀ (s : State) (c : FaultCause), s.fault = some c → ∃ f, step s = .fault f ∧ f.cause = c ∧ f.faulted = s)

/-- No step of the unit is refused: every instruction of the set has its meaning (R8: a step ends in a next
state or a fault). For a Halted or Faulted unit this rests on how its step answers (log 6). -/
def Obligations.NoStepIsRefused : Prop :=
  ∀ (s : State) (q : Refusal), step s ≠ .refused q

/-! ## What a step can change, over all instructions -/

/-- R19: no instruction writes FL and none reads it: with another FL the step does the same, and leaves that FL.
For a Halted or Faulted unit this rests on how its step answers (log 6). -/
def Obligations.FlagsAreNeitherWrittenNorRead : Prop :=
  (∀ s t : State, step s = .next t → t.fl = s.fl) ∧
  (∀ (s t : State) (v : Byte), step s = .next t → step { s with fl := v } = .next { t with fl := v }) ∧
  (∀ (s : State) (f : Fault) (v : Byte), step s = .fault f →
    ∃ g, step { s with fl := v } = .fault g ∧ g.cause = f.cause)

/-- R22: `out` is append-only and no instruction reads it: with another output so far, the step does the same
and appends the same values. That the output is a sequence of bytes is the spec's decision D9 (log 9); for a
Halted unit the statement rests on how its step answers (log 6). -/
def Obligations.OutputIsAppendOnlyAndNotRead : Prop :=
  ∀ s t : State, step s = .next t → ∃ e, t.out = s.out ++ e ∧ e.length ≤ 1 ∧
    ∀ o, step { s with out := o } = .next { t with out := o ++ e }

/-- R10, R98: a step that changes `out` executed a PRN, and appended the value of the register it names. That
the output is a sequence of bytes is the spec's decision D9 (log 9); for a Halted unit the statement rests on
how its step answers (log 6). -/
def Obligations.OnlyPrnEmits : Prop :=
  ∀ s t : State, step s = .next t → t.out ≠ s.out →
    ∃ a v, memRead s s.pc = .ok 0x47#8 ∧ memRead s (s.pc + 1) = .ok a ∧ registerGet s a = .ok v ∧ t.out = s.out ++ [v]

/-- R10, R37: a byte of memory that a step changes was changed by a PSH, at the address the new stack pointer
holds, on canonical memory. For a Halted unit this rests on how its step answers (log 6). -/
def Obligations.OnlyPshWritesMemory : Prop :=
  ∀ (s t : State) (x : Addr), Memory.wf s.mem = true → step s = .next t → memRead t x ≠ memRead s x →
    memRead s s.pc = .ok 0x45#8 ∧ stackAddress t = .ok x

/-- R15: which instruction writes which register: LDI and MUL their first operand, PSH R7, POP R7 and its
operand, HLT and PRN none. For a Halted unit this rests on how its step answers (log 6). -/
def Obligations.RegistersAreWrittenAsTabled : Prop :=
  ∀ (s t : State) (r : Byte), step s = .next t → registerGet t r ≠ registerGet s r →
    ∃ op a, memRead s s.pc = .ok op ∧ memRead s (s.pc + 1) = .ok a ∧
      ((op = 0x82#8 ∧ r = a) ∨ (op = 0xA2#8 ∧ r = a) ∨ (op = 0x45#8 ∧ r = 7#8) ∨ (op = 0x46#8 ∧ (r = 7#8 ∨ r = a)))

/-- R44: a store is seen by instruction fetch with nothing needed in between: from the state right after a PSH, a
fetch at any address up to 253 reads the pushed byte where it was stored and the old bytes elsewhere. That
fetch and store share one memory without synchronisation is the spec's decision D14 (log 22). -/
def Obligations.StoreIsSeenByTheNextFetch : Prop :=
  ∀ (a : Byte) (s t : State) (p : Addr), Memory.wf s.mem = true → exec (.psh a) s = .next t → p.toNat ≤ 253 →
    ∃ f g v sp, fetch { s with pc := p } = .ok f ∧ fetch { t with pc := p } = .ok g ∧
      registerGet t a = .ok v ∧ registerGet t 7#8 = .ok sp ∧
      g.op = (if p = zext9 sp then v else f.op) ∧ g.a = (if p + 1 = zext9 sp then v else f.a) ∧
      g.b = (if p + 2 = zext9 sp then v else f.b)

/-! ## Invariant, reset, load and the end of a run -/

/-- R26 (a) to (e) as an invariant: every step, and every fault, keeps it from every state that has it. The
range of pc is the spec's decision D3 (log 3), the value of FL D6 (log 7), the state a fault carries D5 (log 5).
For a Halted or Faulted unit it rests on how its step answers (log 6). -/
def Obligations.LegalStateIsKept : Prop :=
  ∀ s : State, LegalState s →
    (∀ t, step s = .next t → LegalState t) ∧ (∀ f, step s = .fault f → LegalState f.faulted)

/-- The invariant of R26 holds at reset (R25). The range of pc in the invariant is the spec's decision D3 (log
3), the value of FL its decision D6 (log 7). -/
def Obligations.LegalStateAtReset : Prop := LegalState State.reset

/-- The loader keeps the invariant of R26, whatever the image (R152). The range of pc in the invariant is the
spec's decision D3 (log 3), the value of FL its decision D6 (log 7). -/
def Obligations.LoaderKeepsLegalState : Prop :=
  ∀ (image : List Byte) (s t : State), LegalState s → loadImage image s = some t → LegalState t

/-- R25, R150: what reset leaves. The value of FL is the spec's decision D6 (log 7). The fault latch is the
spec's decision D5 (log 5), the output sequence its decision D9 (log 9). -/
def Obligations.ResetLeavesTheStatedValues : Prop :=
  (∀ x : Addr, x.toNat ≤ 255 → memRead State.reset x = .ok 0x00#8) ∧
  (∀ r : Byte, r.toNat ≤ 6 → registerGet State.reset r = .ok 0x00#8) ∧ registerGet State.reset 7#8 = .ok 0xF4#8 ∧
  State.reset.pc = 0 ∧ State.reset.fl = 0x00#8 ∧ State.reset.halted = false ∧ State.reset.fault = none ∧
  State.reset.out = []

/-- R152: an image of n ≤ 256 bytes lands at addresses 0 to n - 1 and nothing else changes; a longer one is
refused (the spec's decision D12; log 12). -/
def Obligations.LoaderPlacesTheImage : Prop :=
  ∀ (image : List Byte) (s : State), Memory.wf s.mem = true →
    (image.length ≤ 256 → ∃ t, loadImage image s = some t ∧
      (∀ (x : Addr) (v : Byte), image[x.toNat]? = some v → memRead t x = .ok v) ∧
      (∀ x : Addr, image.length ≤ x.toNat → memRead t x = memRead s x) ∧
      RegistersKeptBut [] s t ∧ ControlKept s t ∧ t.out = s.out) ∧
    (256 < image.length → loadImage image s = none)

/-- R82: every run ends, in at most 128 steps, Halted or Faulted, from any Running state. A run that halts in
fewer steps still counts 128, because a Halted unit's step answers its own state: the model's choice (log 6).
The bound rests on a program counter that does not wrap, the spec's decision D3 (log 3), and on the fetch past
255 faulting, its decisions D2 and D17 (log 2). -/
def Obligations.EveryRunEndsWithin128Steps : Prop :=
  ∀ s : State, Running s →
    (∃ t, runSteps 128 s = .next t ∧ EndedWell t) ∨
    (∃ f, runSteps 128 s = .fault f)

/-- R97: for every register 0 to 7 and every byte v, LDI r, v followed by PRN r outputs v, leaves x[r] = v and
raises pc by 5, from any Running state with pc at most 250. The bound 250 keeps the second instruction's operand
fetch in range (D2, D17, log 2), where pc does not wrap (D3, log 3); the output is a sequence (D9, log 9). -/
def Obligations.LdiThenPrnOutputsTheValue : Prop :=
  ∀ (s : State) (r v : Byte), Running s → s.pc.toNat ≤ 250 → r.toNat ≤ 7 →
    BytesAt s 0x82#8 r v → memRead s (s.pc + 3) = .ok 0x47#8 → memRead s (s.pc + 4) = .ok r →
    ∃ t : State, runSteps 2 s = .next t ∧ t.out = s.out ++ [v] ∧
      registerGet t r = .ok v ∧ t.pc = s.pc + 5 ∧ RegistersKeptBut [r] s t ∧ MemoryKeptBut [] s t ∧ Running t

/-! ## The host boundary -/

/-- R64: the load text of any image, one line of eight binary digits per byte, is read back as that image. That
the line feed ends a line is the model's choice (log 23). That a numeral is eight digits is the model's choice
(log 12). -/
def Obligations.LoadTextIsReadBack : Prop :=
  ∀ image : List Byte, parseLoadText (renderLoadText image) = some image

/-- R64: a trailing comment introduced by `#` changes nothing, and a blank or comment-only line is skipped.
That spaces, and spaces alone, make a line blank is the model's choice (log 12, log 23). -/
def Obligations.CommentsAndBlankLinesAreSkipped : Prop :=
  ∀ (l c : List Char) (ls : List (List Char)),
    parseLines ((l ++ '#' :: c) :: ls) = parseLines (l :: ls) ∧
    ((∀ x ∈ l, x = ' ') → parseLines (l :: ls) = parseLines ls)

/-- R22: the host's numeral of a value is its decimal digits, at least one, without leading zeros (0 is the one
digit 0); the text of no output is empty, and each value adds one numeral and one line end, in order. The
rendering is derived in the spec (log 9). -/
def Obligations.OutputTextIsDecimalLines : Prop :=
  (∀ v : Byte, (decimalNumeral v).foldl (fun n c => 10 * n + (c.toNat - 48)) 0 = v.toNat ∧
    (∀ c ∈ decimalNumeral v, 48 ≤ c.toNat ∧ c.toNat ≤ 57) ∧ decimalNumeral v ≠ [] ∧
    ((decimalNumeral v).head? = some '0' → v = 0)) ∧
  decimalNumeral 0 = ['0'] ∧ outText [] = [] ∧
  (∀ (vs : List Byte) (v : Byte), outText (vs ++ [v]) = outText vs ++ (decimalNumeral v ++ Config.lineEnd))
end

