-- ==== Sys2Proof/Laws/Memory.lean ====
section
/-! SUPPORT. The laws of the memory list: reading after a write, and the canonical form kept. -/

namespace Sys2Proof.Machine

@[simp] theorem Memory.get_nil (a : Nat) : Memory.get [] a = Memory.unlisted := rfl

theorem Memory.wfFrom_mono {lo lo' : Nat} (h : lo ≤ lo') :
    ∀ {m : Memory}, Memory.wfFrom lo' m = true → Memory.wfFrom lo m = true
  | [], _ => rfl
  | (k, w) :: m, hm => by
    simp only [Memory.wfFrom, Bool.and_eq_true, decide_eq_true_eq] at hm ⊢
    exact ⟨⟨⟨h.trans hm.1.1.1, hm.1.1.2⟩, hm.1.2⟩, hm.2⟩

/-- Below its bound a canonical memory lists nothing. -/
theorem Memory.get_below {lo a : Nat} (h : a < lo) :
    ∀ {m : Memory}, Memory.wfFrom lo m = true → Memory.get m a = Memory.unlisted
  | [], _ => rfl
  | (k, w) :: m, hm => by
    simp only [Memory.wfFrom, Bool.and_eq_true, decide_eq_true_eq] at hm
    have hk : k ≠ a := by omega
    simp only [Memory.get, if_neg hk]
    exact Memory.get_below (by omega) hm.2

/-- A write keeps the canonical form. -/
theorem Memory.wfFrom_put {a : Nat} (v : Byte) (ha : a < Config.memSize) :
    ∀ {lo : Nat} {m : Memory}, lo ≤ a → Memory.wfFrom lo m = true → Memory.wfFrom lo (Memory.put m a v) = true
  | lo, [], hlo, _ => by
    by_cases hv : v = Memory.unlisted <;> simp [Memory.put, Memory.wfFrom, hv, hlo, ha]
  | lo, (k, w) :: m, hlo, hm => by
    simp only [Memory.wfFrom, Bool.and_eq_true, decide_eq_true_eq] at hm
    obtain ⟨⟨⟨h1, h2⟩, h3⟩, h4⟩ := hm
    unfold Memory.put
    split_ifs with hlt hv heq hv'
    · simp [Memory.wfFrom, *]
    · simp [Memory.wfFrom, *, Nat.succ_le_of_lt hlt]
    · exact Memory.wfFrom_mono (by omega) h4
    · subst heq; simp [Memory.wfFrom, *]
    · have := Memory.wfFrom_put v ha (lo := k + 1) (by omega) h4
      simp [Memory.wfFrom, *]

theorem Memory.wf_put {m : Memory} {a : Nat} (v : Byte) (ha : a < Config.memSize) (h : Memory.wf m = true) :
    Memory.wf (Memory.put m a v) = true :=
  Memory.wfFrom_put v ha (Nat.zero_le a) h

/-- On a canonical memory a read after a write gives the value written there and the old byte elsewhere. -/
theorem Memory.get_put_wfFrom {a : Nat} (v : Byte) (b : Nat) :
    ∀ {lo : Nat} {m : Memory}, Memory.wfFrom lo m = true →
      Memory.get (Memory.put m a v) b = if b = a then v else Memory.get m b
  | _, [], _ => by
    by_cases hv : v = Memory.unlisted
    · simp [Memory.put, hv]
    · simp [Memory.put, hv, Memory.get, eq_comm]
  | lo, (k, w) :: m, hm => by
    have hm' := hm
    simp only [Memory.wfFrom, Bool.and_eq_true, decide_eq_true_eq] at hm'
    obtain ⟨⟨⟨-, h2⟩, h3⟩, h4⟩ := hm'
    have above : ∀ c, c ≤ k → Memory.get m c = Memory.unlisted := fun c hc =>
      Memory.get_below (lo := k + 1) (by omega) h4
    unfold Memory.put
    by_cases hlt : a < k
    · by_cases hv : v = Memory.unlisted
      · have hak : k ≠ a := by omega
        rw [if_pos hlt, if_pos hv]
        split
        · next hb => rw [hb, Memory.get, if_neg hak, above a (by omega), hv]
        · rfl
      · simp only [if_pos hlt, if_neg hv, Memory.get, eq_comm (a := a) (b := b)]
    · by_cases heq : a = k
      · subst heq
        by_cases hv : v = Memory.unlisted
        · rw [if_neg hlt, if_pos rfl, if_pos hv]
          split
          · next hb => rw [hb, above a le_rfl, hv]
          · next hb => rw [Memory.get, if_neg (Ne.symm hb)]
        · rw [if_neg hlt, if_pos rfl, if_neg hv]
          by_cases hb : b = a
          · simp [Memory.get, hb]
          · simp [Memory.get, hb, Ne.symm hb]
      · rw [if_neg hlt, if_neg heq]
        by_cases hb : k = b
        · subst hb; simp [Memory.get, Ne.symm heq]
        · simp only [Memory.get, if_neg hb]
          exact Memory.get_put_wfFrom v b h4

theorem Memory.get_put {m : Memory} (h : Memory.wf m = true) (a : Nat) (v : Byte) (b : Nat) :
    Memory.get (Memory.put m a v) b = if b = a then v else Memory.get m b :=
  Memory.get_put_wfFrom v b h

/-- Storing a byte string keeps the canonical form. -/
theorem storeBytes_wf : ∀ {vs : List Byte} {m : Memory} {a : Nat}, Memory.wf m = true →
    Memory.wf (storeBytes m a vs) = true
  | [], _, _, h => h
  | v :: vs, m, a, h => by
    unfold storeBytes
    split
    · exact storeBytes_wf (Memory.wf_put v ‹_› h)
    · exact storeBytes_wf h

/-- What a canonical memory reads as after a byte string that fits was stored: the string where it lies, the
old bytes elsewhere. -/
theorem get_storeBytes : ∀ {vs : List Byte} {m : Memory} {a : Nat}, Memory.wf m = true →
    a + vs.length ≤ Config.memSize → ∀ x, Memory.get (storeBytes m a vs) x =
      if a ≤ x then (vs[x - a]?).getD (Memory.get m x) else Memory.get m x
  | [], _, _, _, _, _ => by simp [storeBytes]
  | v :: vs, m, a, hwf, hl, x => by
    simp only [List.length_cons] at hl
    have ha : a < Config.memSize := by omega
    simp only [storeBytes, if_pos ha]
    rw [get_storeBytes (Memory.wf_put v ha hwf) (by omega), Memory.get_put hwf]
    by_cases hx : x = a
    · subst hx; simp
    · by_cases hax : a ≤ x
      · rw [if_pos (by omega), if_pos hax, if_neg hx, show x - a = x - (a + 1) + 1 by omega]; simp
      · rw [if_neg (by omega), if_neg hax, if_neg hx]

end Sys2Proof.Machine
end

