-- ==== Sys2Proof/Laws/State.lean ====
section
/-! SUPPORT. One lemma per field per named state update, so that no proof unfolds a record update. -/

namespace Sys2Proof.Machine

variable (s : State) (c : FaultCause) (v : Byte) (op : Byte) (nbits w : Nat)

/-! ## The fault latch -/

@[simp] theorem latch_mem : (latch c s).mem = s.mem := rfl
@[simp] theorem latch_regs : (latch c s).regs = s.regs := rfl
@[simp] theorem latch_pc : (latch c s).pc = s.pc := rfl
@[simp] theorem latch_fl : (latch c s).fl = s.fl := rfl
@[simp] theorem latch_halted : (latch c s).halted = s.halted := rfl
@[simp] theorem latch_fault : (latch c s).fault = some c := rfl
@[simp] theorem latch_out : (latch c s).out = s.out := rfl

/-! ## The output -/

@[simp] theorem emit_mem : (emit s v).mem = s.mem := rfl
@[simp] theorem emit_regs : (emit s v).regs = s.regs := rfl
@[simp] theorem emit_pc : (emit s v).pc = s.pc := rfl
@[simp] theorem emit_fl : (emit s v).fl = s.fl := rfl
@[simp] theorem emit_halted : (emit s v).halted = s.halted := rfl
@[simp] theorem emit_fault : (emit s v).fault = s.fault := rfl
@[simp] theorem emit_out : (emit s v).out = s.out ++ [v] := rfl

/-! ## The advance of the program counter -/

@[simp] theorem advance_mem : (advance op s).mem = s.mem := by unfold advance; split <;> rfl
@[simp] theorem advance_regs : (advance op s).regs = s.regs := by unfold advance; split <;> rfl
@[simp] theorem advance_fl : (advance op s).fl = s.fl := by unfold advance; split <;> rfl
@[simp] theorem advance_halted : (advance op s).halted = s.halted := by unfold advance; split <;> rfl
@[simp] theorem advance_fault : (advance op s).fault = s.fault := by unfold advance; split <;> rfl
@[simp] theorem advance_out : (advance op s).out = s.out := by unfold advance; split <;> rfl

theorem advance_pc : (advance op s).pc = if setsPc op then s.pc else s.pc + BitVec.ofNat 9 (instrLength op) := by
  unfold advance; split <;> rfl

/-! ## The placing of an instruction word -/

@[simp] theorem withFetchWord_regs : (s.withFetchWord nbits w).regs = s.regs := rfl
@[simp] theorem withFetchWord_pc : (s.withFetchWord nbits w).pc = s.pc := rfl
@[simp] theorem withFetchWord_fl : (s.withFetchWord nbits w).fl = s.fl := rfl
@[simp] theorem withFetchWord_halted : (s.withFetchWord nbits w).halted = s.halted := rfl
@[simp] theorem withFetchWord_fault : (s.withFetchWord nbits w).fault = s.fault := rfl
@[simp] theorem withFetchWord_out : (s.withFetchWord nbits w).out = s.out := rfl

/-! ## Fault outcomes -/

@[simp] theorem faultOf_cause : (faultOf c s).cause = c := by cases c <;> rfl
@[simp] theorem faultOf_faulted : (faultOf c s).faulted = s := by cases c <;> rfl

theorem faultOf_cause_faulted (f : Fault) : faultOf f.cause f.faulted = f := by cases f <;> rfl

end Sys2Proof.Machine
end

