-- ==== Sys2Proof/Laws/Ops.lean ====
section
/-! SUPPORT. What each shared operation can do, said once: the register and memory operations, the stack pointer, the settling of a handler. -/

namespace Sys2Proof.Machine

/-! ## Operands -/

theorem regIndex_legal {i : Byte} (h : i.toNat < Config.nregs) : regIndex i = .ok ⟨i.toNat, h⟩ := dif_pos h

theorem regIndex_illegal {i : Byte} (h : ¬ i.toNat < Config.nregs) :
    regIndex i = .error (.regIndexOutOfRange i) := dif_neg h

theorem zext9_toNat (v : Byte) : (zext9 v).toNat = v.toNat := by
  simp only [zext9, BitVec.toNat_setWidth]; have := v.isLt; omega

theorem zext9_lt (v : Byte) : (zext9 v).toNat < Config.memSize := by
  rw [zext9_toNat]; exact v.isLt

theorem zext9_injective {v w : Byte} (h : zext9 v = zext9 w) : v = w := by
  have := congrArg BitVec.toNat h
  rw [zext9_toNat, zext9_toNat] at this
  exact BitVec.eq_of_toNat_eq this

/-! ## Registers -/

theorem registerGet_legal (s : State) {i : Byte} (h : i.toNat < Config.nregs) :
    registerGet s i = .ok s.regs[i.toNat] := by simp [registerGet, regIndex_legal h]

theorem registerGet_illegal (s : State) {i : Byte} (h : ¬ i.toNat < Config.nregs) :
    registerGet s i = .error (.regIndexOutOfRange i) := by simp [registerGet, regIndex_illegal h]

theorem registerSet_legal (s : State) {i : Byte} (v : Byte) (h : i.toNat < Config.nregs) :
    registerSet s i v = .ok { s with regs := s.regs.set i.toNat v } := by simp [registerSet, regIndex_legal h]

theorem registerSet_illegal (s : State) {i : Byte} (v : Byte) (h : ¬ i.toNat < Config.nregs) :
    registerSet s i v = .error (.regIndexOutOfRange i) := by simp [registerSet, regIndex_illegal h]

/-- Reading a register depends on the register array alone. -/
theorem registerGet_congr {s t : State} (h : t.regs = s.regs) (i : Byte) : registerGet t i = registerGet s i := by
  unfold registerGet; rw [h]

/-- What the registers read as in any state whose register array is another's with one element set. -/
theorem registerGet_of_regs_set {s t : State} {i v : Byte} (hi : i.toNat < Config.nregs)
    (ht : t.regs = s.regs.set i.toNat v) :
    registerGet t i = .ok v ∧ ∀ j, j ≠ i → registerGet t j = registerGet s j := by
  refine ⟨?_, fun j hj => ?_⟩
  · rw [registerGet_legal _ hi]; simp [ht]
  · by_cases hj' : j.toNat < Config.nregs
    · have hne : i.toNat ≠ j.toNat := fun e => hj (BitVec.eq_of_toNat_eq e.symm)
      rw [registerGet_legal _ hj', registerGet_legal _ hj']
      simp only [ht, Vector.getElem_set_ne (h := hne)]
    · rw [registerGet_illegal _ hj', registerGet_illegal _ hj']

/-- Everything `registerSet` can do: write that one register and nothing else, or reject the index. -/
theorem registerSet_ok {s t : State} {i v : Byte} (h : registerSet s i v = .ok t) :
    i.toNat < Config.nregs ∧ registerGet t i = .ok v ∧ (∀ j, j ≠ i → registerGet t j = registerGet s j) ∧
    t.mem = s.mem ∧ t.pc = s.pc ∧ t.fl = s.fl ∧ t.halted = s.halted ∧ t.fault = s.fault ∧ t.out = s.out := by
  by_cases hi : i.toNat < Config.nregs
  · rw [registerSet_legal s v hi, Except.ok.injEq] at h
    subst h
    obtain ⟨h1, h2⟩ := registerGet_of_regs_set (s := s) (t := { s with regs := s.regs.set i.toNat v }) hi rfl
    exact ⟨hi, h1, h2, rfl, rfl, rfl, rfl, rfl, rfl⟩
  · rw [registerSet_illegal s v hi] at h; cases h

/-! ## Memory -/

theorem memRead_cell (s : State) {a : Addr} (h : a.toNat < Config.memSize) :
    memRead s a = .ok (Memory.get s.mem a.toNat) := if_pos h

theorem memRead_outside (s : State) {a : Addr} (h : ¬ a.toNat < Config.memSize) :
    memRead s a = .error (.memOutOfRange a) := if_neg h

/-- Reading memory depends on the memory list alone. -/
theorem memRead_congr {s t : State} (h : t.mem = s.mem) (a : Addr) : memRead t a = memRead s a := by
  unfold memRead; rw [h]

theorem memWrite_cell (s : State) {a : Addr} (v : Byte) (h : a.toNat < Config.memSize) :
    memWrite s a v = .ok { s with mem := Memory.put s.mem a.toNat v } := if_pos h

theorem memWrite_outside (s : State) {a : Addr} (v : Byte) (h : ¬ a.toNat < Config.memSize) :
    memWrite s a v = .error (.memOutOfRange a) := if_neg h

/-- Everything `memWrite` can do on a canonical memory: change that one cell and nothing else, keep the
canonical form; or reject the address. -/
theorem memWrite_ok {s t : State} {a : Addr} {v : Byte} (hwf : Memory.wf s.mem = true) (h : memWrite s a v = .ok t) :
    a.toNat < Config.memSize ∧ memRead t a = .ok v ∧ (∀ b, b ≠ a → memRead t b = memRead s b) ∧
    Memory.wf t.mem = true ∧
    t.regs = s.regs ∧ t.pc = s.pc ∧ t.fl = s.fl ∧ t.halted = s.halted ∧ t.fault = s.fault ∧ t.out = s.out := by
  by_cases ha : a.toNat < Config.memSize
  · rw [memWrite_cell s v ha, Except.ok.injEq] at h
    subst h
    refine ⟨ha, ?_, fun b hb => ?_, Memory.wf_put v ha hwf, rfl, rfl, rfl, rfl, rfl, rfl⟩
    · rw [memRead_cell _ ha, Memory.get_put hwf, if_pos rfl]
    · by_cases hb' : b.toNat < Config.memSize
      · have hne : b.toNat ≠ a.toNat := fun e => hb (BitVec.eq_of_toNat_eq e)
        rw [memRead_cell _ hb', memRead_cell _ hb', Memory.get_put hwf, if_neg hne]
      · rw [memRead_outside _ hb', memRead_outside _ hb']
  · rw [memWrite_outside s v ha] at h; cases h

/-! ## The stack pointer -/

theorem registerGet_sp (s : State) : registerGet s Config.spIndex = .ok s.regs[7] :=
  registerGet_legal s (i := Config.spIndex) (by decide)

theorem stackAddress_eq (s : State) : stackAddress s = .ok (zext9 s.regs[7]) := by
  simp [stackAddress, registerGet_sp]

theorem spDecrement_eq (s : State) : spDecrement s = .ok { s with regs := s.regs.set 7 (s.regs[7] - 1) } := by
  simp only [spDecrement, registerGet_sp]
  exact registerSet_legal s (i := Config.spIndex) _ (by decide)

theorem spIncrement_eq (s : State) : spIncrement s = .ok { s with regs := s.regs.set 7 (s.regs[7] + 1) } := by
  simp only [spIncrement, registerGet_sp]
  exact registerSet_legal s (i := Config.spIndex) _ (by decide)

/-! ## The ALU -/

theorem aluAdd_toNat (x y : Byte) : (aluAdd x y).toNat = (x.toNat + y.toNat) % 256 := by
  simp [aluAdd]

theorem aluMul_toNat (x y : Byte) : (aluMul x y).toNat = x.toNat * y.toNat % 256 := by
  simp [aluMul]

theorem aluBinary_legal (f : Byte → Byte → Byte) {ra rb : Byte} (s : State)
    (ha : ra.toNat < Config.nregs) (hb : rb.toNat < Config.nregs) :
    aluBinary f ra rb s = .ok { s with regs := s.regs.set ra.toNat (f s.regs[ra.toNat] s.regs[rb.toNat]) } := by
  simp only [aluBinary, registerGet_legal s ha, registerGet_legal s hb]
  exact registerSet_legal s _ ha

theorem aluBinary_illegal_first (f : Byte → Byte → Byte) {ra rb : Byte} (s : State)
    (ha : ¬ ra.toNat < Config.nregs) : aluBinary f ra rb s = .error (.regIndexOutOfRange ra) := by
  simp only [aluBinary, registerGet_illegal s ha]; rfl

theorem aluBinary_illegal_second (f : Byte → Byte → Byte) {ra rb : Byte} (s : State)
    (ha : ra.toNat < Config.nregs) (hb : ¬ rb.toNat < Config.nregs) :
    aluBinary f ra rb s = .error (.regIndexOutOfRange rb) := by
  simp only [aluBinary, registerGet_legal s ha, registerGet_illegal s hb]; rfl

/-! ## Settling a handler -/

@[simp] theorem settle_ok (s t : State) : settle s (.ok t) = .next t := rfl
@[simp] theorem settle_error (s : State) (c : FaultCause) : settle s (.error c) = raise c s := rfl

/-- `settle` answers a next state exactly when the handler completed with it. -/
theorem settle_next {s t : State} {r : Except FaultCause State} : settle s r = .next t ↔ r = .ok t := by
  cases r <;> simp [settle, raise]

/-- `settle` answers a fault exactly when the handler raised its cause, and the Faulted state it carries is
the state before the handler with only the latch set. -/
theorem settle_fault {s : State} {r : Except FaultCause State} {f : Fault} :
    settle s r = .fault f ↔ ∃ c, r = .error c ∧ f = faultOf c (latch c s) := by
  cases r <;> simp [settle, raise, eq_comm]

/-- `settle` never refuses. -/
theorem settle_not_refused {s : State} {r : Except FaultCause State} {q : Refusal} : settle s r ≠ .refused q := by
  cases r <;> simp [settle, raise]

end Sys2Proof.Machine
end

