-- ==== Sys2Proof/Laws/Exec.lean ====
section
/-! SUPPORT. One equation per meaning on legal and on illegal operands, and the inversion of a step, cited instead of unfolding. -/

namespace Sys2Proof.Machine

variable (s : State) {a b : Byte}

theorem execHlt_eq : execHlt s = .next { s with halted := true } := rfl

theorem execLdi_legal (b : Byte) (ha : a.toNat < Config.nregs) :
    execLdi a b s = .next { s with regs := s.regs.set a.toNat b } := by
  simp [execLdi, immediate, registerSet_legal s b ha]

theorem execLdi_illegal (b : Byte) (ha : ¬ a.toNat < Config.nregs) :
    execLdi a b s = raise (.regIndexOutOfRange a) s := by
  simp [execLdi, registerSet_illegal s _ ha]

theorem execPrn_legal (ha : a.toNat < Config.nregs) :
    execPrn a s = .next { s with out := s.out ++ [s.regs[a.toNat]] } := by
  simp only [execPrn, registerGet_legal s ha]; rfl

theorem execPrn_illegal (ha : ¬ a.toNat < Config.nregs) :
    execPrn a s = raise (.regIndexOutOfRange a) s := by
  simp only [execPrn, registerGet_illegal s ha]; rfl

theorem execMul_legal (ha : a.toNat < Config.nregs) (hb : b.toNat < Config.nregs) :
    execMul a b s = .next { s with regs := s.regs.set a.toNat (aluMul s.regs[a.toNat] s.regs[b.toNat]) } := by
  simp only [execMul, aluApply, aluBinary_legal aluMul s ha hb, settle_ok]

theorem execMul_illegal_first (ha : ¬ a.toNat < Config.nregs) :
    execMul a b s = raise (.regIndexOutOfRange a) s := by
  simp only [execMul, aluApply, aluBinary_illegal_first aluMul s ha, settle_error]

theorem execMul_illegal_second (ha : a.toNat < Config.nregs) (hb : ¬ b.toNat < Config.nregs) :
    execMul a b s = raise (.regIndexOutOfRange b) s := by
  simp only [execMul, aluApply, aluBinary_illegal_second aluMul s ha hb, settle_error]

theorem execPsh_legal (ha : a.toNat < Config.nregs) :
    execPsh a s = .next { s with
      regs := s.regs.set 7 (s.regs[7] - 1)
      mem := Memory.put s.mem (s.regs[7] - 1).toNat ((s.regs.set 7 (s.regs[7] - 1))[a.toNat]) } := by
  simp only [execPsh, regIndex_legal ha, spDecrement_eq]
  change settle s ((registerGet _ a).bind fun v => (stackAddress _).bind fun top => memWrite _ top v) = _
  rw [registerGet_legal _ ha, stackAddress_eq]
  change settle s (memWrite _ _ _) = _
  rw [memWrite_cell _ _ (zext9_lt _), settle_ok, zext9_toNat]
  simp

theorem execPsh_illegal (ha : ¬ a.toNat < Config.nregs) :
    execPsh a s = raise (.regIndexOutOfRange a) s := by
  simp only [execPsh, regIndex_illegal ha]; rfl

theorem execPop_legal (ha : a.toNat < Config.nregs) :
    execPop a s = .next { s with
      regs := (s.regs.set 7 (s.regs[7] + 1)).set a.toNat (Memory.get s.mem s.regs[7].toNat) } := by
  simp only [execPop, regIndex_legal ha, stackAddress_eq]
  change settle s ((memRead s _).bind fun v => (spIncrement s).bind fun s1 => registerSet s1 a v) = _
  rw [memRead_cell s (zext9_lt _), spIncrement_eq]
  change settle s (registerSet _ a _) = _
  rw [registerSet_legal _ _ ha, settle_ok, zext9_toNat]

theorem execPop_illegal (ha : ¬ a.toNat < Config.nregs) :
    execPop a s = raise (.regIndexOutOfRange a) s := by
  simp only [execPop, regIndex_illegal ha]; rfl

/-! ## Any meaning: it completes, or it faults on a register index -/

/-- Everything the meaning of any instruction can do: complete when its register indices are legal, leaving
`pc`, the flags and the fault latch alone and the memory canonical; or fault on an illegal index. -/
theorem exec_cases (i : Instr) :
    (i.wellFormed = true ∧ ∃ t, exec i s = .next t ∧ t.pc = s.pc ∧ t.fl = s.fl ∧ t.fault = s.fault ∧
      t.halted = (if i = .hlt then true else s.halted) ∧ (Memory.wf s.mem = true → Memory.wf t.mem = true)) ∨
    (i.wellFormed = false ∧ ∃ x, exec i s = raise (.regIndexOutOfRange x) s) := by
  cases i with
  | hlt => exact .inl ⟨rfl, _, execHlt_eq s, rfl, rfl, rfl, rfl, id⟩
  | ldi a b =>
    by_cases ha : a.toNat < Config.nregs
    · exact .inl ⟨decide_eq_true ha, _, execLdi_legal s b ha, rfl, rfl, rfl, rfl, id⟩
    · exact .inr ⟨decide_eq_false ha, a, execLdi_illegal s b ha⟩
  | prn a =>
    by_cases ha : a.toNat < Config.nregs
    · exact .inl ⟨decide_eq_true ha, _, execPrn_legal s ha, rfl, rfl, rfl, rfl, id⟩
    · exact .inr ⟨decide_eq_false ha, a, execPrn_illegal s ha⟩
  | mul a b =>
    by_cases ha : a.toNat < Config.nregs
    · by_cases hb : b.toNat < Config.nregs
      · exact .inl ⟨by simp [Instr.wellFormed, legalIndex, ha, hb], _, execMul_legal s ha hb, rfl, rfl, rfl, rfl, id⟩
      · exact .inr ⟨by simp [Instr.wellFormed, legalIndex, hb], b, execMul_illegal_second s ha hb⟩
    · exact .inr ⟨by simp [Instr.wellFormed, legalIndex, ha], a, execMul_illegal_first s ha⟩
  | psh a =>
    by_cases ha : a.toNat < Config.nregs
    · exact .inl ⟨decide_eq_true ha, _, execPsh_legal s ha, rfl, rfl, rfl, rfl, Memory.wf_put _ (s.regs[7] - 1).isLt⟩
    · exact .inr ⟨decide_eq_false ha, a, execPsh_illegal s ha⟩
  | pop a =>
    by_cases ha : a.toNat < Config.nregs
    · exact .inl ⟨decide_eq_true ha, _, execPop_legal s ha, rfl, rfl, rfl, rfl, id⟩
    · exact .inr ⟨decide_eq_false ha, a, execPop_illegal s ha⟩

/-! ## The step -/

theorem fetch_eq {op a b : Byte} (h0 : memRead s s.pc = .ok op) (h1 : memRead s (s.pc + 1) = .ok a)
    (h2 : memRead s (s.pc + 2) = .ok b) : fetch s = .ok ⟨op, a, b⟩ := by
  simp only [fetch, h0, h1, h2]; rfl

/-- A fetch that completes read the three bytes at `pc`, `pc + 1` and `pc + 2`, all of them cells. -/
theorem fetch_ok {f : Fetched} (h : fetch s = .ok f) :
    memRead s s.pc = .ok f.op ∧ memRead s (s.pc + 1) = .ok f.a ∧ memRead s (s.pc + 2) = .ok f.b := by
  unfold fetch at h
  cases h0 : memRead s s.pc with
  | error c => rw [h0] at h; cases h
  | ok op =>
    cases h1 : memRead s (s.pc + 1) with
    | error c => rw [h0, h1] at h; cases h
    | ok a =>
      cases h2 : memRead s (s.pc + 2) with
      | error c => rw [h0, h1, h2] at h; cases h
      | ok b => rw [h0, h1, h2] at h; cases h; exact ⟨rfl, rfl, rfl⟩

theorem decode_ok {op a b : Byte} {i : Instr} (h : decode op a b = .ok i) :
    ∃ k, lookup op = some k ∧ i = k.instr a b := by
  unfold decode at h
  split at h
  · next k hk => cases h; exact ⟨k, hk, rfl⟩
  · cases h

theorem decode_error {op a b o : Byte} (h : decode op a b = .error (.unknownOpcode o)) :
    lookup op = none ∧ o = op := by
  unfold decode at h
  split at h
  · cases h
  · next hn => cases h; exact ⟨hn, rfl⟩

/-- In Running the step is a pass of the loop. -/
theorem step_running (hh : s.halted = false) (hf : s.fault = none) : step s = loopPass s := by
  simp [step, unitStep, hh, hf]

theorem step_halted (hh : s.halted = true) (hf : s.fault = none) : step s = .next s := by
  simp [step, unitStep, hh, hf]

theorem step_faulted {c : FaultCause} (hf : s.fault = some c) : step s = .fault (faultOf c s) := by
  simp [step, unitStep, hf]

/-- Every way a step answers a next state: the unit was Halted and stays as it is, or it was Running, the
fetched bytes decode, the handler completed and the loop advanced. -/
theorem step_next_cases {t : State} (h : step s = .next t) :
    (s.fault = none ∧ s.halted = true ∧ t = s) ∨
    (s.fault = none ∧ s.halted = false ∧ ∃ f i u, fetch s = .ok f ∧ decode f.op f.a f.b = .ok i ∧
      exec i s = .next u ∧ t = advance f.op u) := by
  cases hf : s.fault with
  | some c => rw [step_faulted s hf] at h; cases h
  | none =>
    cases hh : s.halted with
    | true => rw [step_halted s hh hf] at h; cases h; exact .inl ⟨rfl, rfl, rfl⟩
    | false =>
      rw [step_running s hh hf] at h
      unfold loopPass at h
      split at h
      · cases h
      · next f hfetch =>
        unfold dispatch at h
        split at h
        · cases h
        · next i hi =>
          unfold afterHandler at h
          split at h
          · next u hu => cases h; exact .inr ⟨rfl, rfl, f, i, u, hfetch, hi, hu, rfl⟩
          · cases h
          · cases h

/-- Every way a step of a unit that is not Faulted answers a fault: the fetch ran past memory, the opcode is
unknown, or the handler raised it; the unit was Running. -/
theorem step_fault_cases {f : Fault} (hf : s.fault = none) (h : step s = .fault f) :
    s.halted = false ∧
    ((∃ c, fetch s = .error c ∧ f = faultOf c (latch c s)) ∨
     (∃ g, fetch s = .ok g ∧ lookup g.op = none ∧
        f = faultOf (.unknownOpcode g.op) (latch (.unknownOpcode g.op) s)) ∨
     (∃ g i, fetch s = .ok g ∧ decode g.op g.a g.b = .ok i ∧ exec i s = .fault f)) := by
  cases hh : s.halted with
  | true => rw [step_halted s hh hf] at h; cases h
  | false =>
    rw [step_running s hh hf] at h
    refine ⟨rfl, ?_⟩
    unfold loopPass at h
    split at h
    · next c hc => cases h; exact .inl ⟨c, hc, rfl⟩
    · next g hg =>
      unfold dispatch at h
      split at h
      · next o ho =>
        cases h
        obtain ⟨hl, rfl⟩ := decode_error ho
        exact .inr (.inl ⟨g, hg, hl, rfl⟩)
      · next i hi =>
        unfold afterHandler at h
        split at h
        · cases h
        · next hx => cases h; exact .inr (.inr ⟨g, i, hg, hi, hx⟩)
        · cases h

end Sys2Proof.Machine
end

