-- ==== Sys2Proof/Laws/PerInstr.lean ====
section
/-! SUPPORT. Per-instruction laws of the encoding: one lemma per constructor of Instr. -/

namespace Sys2Proof.Laws.EncodingForm

/-- The encoding of an instruction is a known opcode byte whose bit 4 is clear, followed by as many operand
bytes as its bits 7:6 count (spec/30_encoding.md R50, R54, R57). -/
def Statement (i : Instr) : Prop :=
  ∃ op rest, encode i = op :: rest ∧ (lookup op).isSome = true ∧ setsPc op = false ∧ rest.length = operandCount op

theorem hlt : Statement .hlt := ⟨_, _, rfl, rfl, rfl, rfl⟩
theorem ldi (a b : Byte) : Statement (.ldi a b) := ⟨_, _, rfl, rfl, rfl, rfl⟩
theorem prn (a : Byte) : Statement (.prn a) := ⟨_, _, rfl, rfl, rfl, rfl⟩
theorem mul (a b : Byte) : Statement (.mul a b) := ⟨_, _, rfl, rfl, rfl, rfl⟩
theorem psh (a : Byte) : Statement (.psh a) := ⟨_, _, rfl, rfl, rfl, rfl⟩
theorem pop (a : Byte) : Statement (.pop a) := ⟨_, _, rfl, rfl, rfl, rfl⟩

end Sys2Proof.Laws.EncodingForm
end

