-- ==== Sys2Proof/Laws/Run.lean ====
section
/-! SUPPORT. Runs of several steps, and the host's run of the same machine. -/

namespace Sys2Proof.Machine

@[simp] theorem runSteps_zero (s : State) : runSteps 0 s = .next s := rfl

theorem runSteps_succ (n : Nat) (s : State) :
    runSteps (n + 1) s = match step s with
      | .next t => runSteps n t
      | .fault f => .fault f
      | .refused q => .refused q := rfl

/-- A Halted unit stays as it is, however many steps are asked of it. -/
theorem runSteps_endedWell (n : Nat) {s : State} (h : EndedWell s) : runSteps n s = .next s := by
  induction n with
  | zero => rfl
  | succ n ih => rw [runSteps_succ, step_halted s h.1 h.2]; exact ih

/-- The host's run of any machine, one step unfolded. -/
theorem host_run_succ (M : Host.Core) (n : Nat) (s : M.State) :
    M.run (n + 1) s = match M.step s with
      | .next t => M.run n t
      | .fault f => .fault f
      | .refused q => .refused q := rfl

/-- `runSteps` is the host's run of the machine. -/
theorem runSteps_eq_host_run : ∀ (n : Nat) (s : Sys2Proof.core.State), Sys2Proof.core.run n s = runSteps n s
  | 0, _ => rfl
  | n + 1, s => by
    rw [host_run_succ]
    change _ = match Sys2Proof.core.step s with
      | .next t => runSteps n t
      | .fault f => .fault f
      | .refused q => .refused q
    cases Sys2Proof.core.step s with
    | next t => exact runSteps_eq_host_run n t
    | fault f => rfl
    | refused q => rfl

end Sys2Proof.Machine
end

