-- ==== Sys2Proof/Tests/Slice0.lean ====
section
/-! SUPPORT. Tests with expected results taken from spec/95_test_vectors.md and the rules' own examples, and a witness for the hypotheses of every statement. -/

namespace Sys2Proof.Tests

open Sys2Proof Sys2Proof.Machine

/-! ## Helpers -/

/-- The state reset leaves, with `bytes` stored from `pc` on, `pc` and the registers as given. -/
def start (pc : Addr) (bytes : List Byte) (regs : Vector Byte 8 := State.reset.regs) : State :=
  { State.reset with mem := storeBytes [] pc.toNat bytes, pc := pc, regs := regs }

/-- The next state of an outcome. -/
def nextOf : Host.Outcome State Fault Refusal → Option State
  | .next t => some t
  | .fault _ => none
  | .refused _ => none

/-- The fault of an outcome. -/
def faultIn : Host.Outcome State Fault Refusal → Option Fault
  | .next _ => none
  | .fault f => some f
  | .refused _ => none

/-! ## Well-formedness: each check refuses an ill-formed term (30_encoding.md R55) -/

theorem test_ill_formed_ldi : (Instr.ldi 8#8 1#8).wellFormed = false := by decide
theorem test_ill_formed_prn : (Instr.prn 8#8).wellFormed = false := by decide
theorem test_ill_formed_mul_first : (Instr.mul 9#8 0#8).wellFormed = false := by decide
theorem test_ill_formed_mul_second : (Instr.mul 0#8 10#8).wellFormed = false := by decide
theorem test_ill_formed_psh : (Instr.psh 255#8).wellFormed = false := by decide
theorem test_ill_formed_pop : (Instr.pop 8#8).wellFormed = false := by decide
theorem test_well_formed_ldi_immediate : (Instr.ldi 7#8 255#8).wellFormed = true := by decide

/-! ## Decoding: words written out from the encodings of R51 to R53 and R57, and 95 section 2.1 -/

theorem test_decode_hlt : decode 0b00000001#8 0xFF#8 0xFF#8 = .ok .hlt := rfl
theorem test_decode_ldi : decode 0b10000010#8 0b00000000#8 0b00001000#8 = .ok (.ldi 0#8 8#8) := rfl
theorem test_decode_prn : decode 0b01000111#8 0b00000010#8 0x01#8 = .ok (.prn 2#8) := rfl
theorem test_decode_mul : decode 0b10100010#8 0b00000000#8 0b00000001#8 = .ok (.mul 0#8 1#8) := rfl
theorem test_decode_psh : decode 0b01000101#8 0b00000101#8 0x00#8 = .ok (.psh 5#8) := rfl
theorem test_decode_pop : decode 0b01000110#8 0b00000110#8 0x00#8 = .ok (.pop 6#8) := rfl

/-- The "none" rows of 95 section 2.1. -/
theorem test_unknown_rows :
    [0x00#8, 0x02#8, 0x22#8, 0x41#8, 0x81#8, 0xA0#8, 0x11#8, 0x57#8, 0x92#8, 0x0A#8, 0xC1#8, 0xFF#8].all
      (fun op => (lookup op).isNone) = true := by decide

/-- Count, length and sets_pc of unknown bytes, 95 section 2.1. -/
theorem test_fields_of_unknown :
    (operandCount 0xC1#8, instrLength 0xFF#8, setsPc 0xFF#8, setsPc 0x0A#8, setsPc 0x11#8) = (3, 4, true, false, true) := by
  decide

/-- The table's word numbering: the first byte is bits 7..0, operand words absent from it are zeros. -/
theorem test_table_word_ldi : decodeTableWord 24 0x080182 = some (.ldi 1#8 8#8) := by decide
theorem test_table_word_short : decodeTableWord 8 0xFFFF45 = some (.psh 0#8) := by decide

/-! ## One step of each instruction -/

/-- 95 section 2.3: `01 FF FF`. -/
theorem test_hlt : (nextOf (step (start 0 [0x01#8, 0xFF#8, 0xFF#8]))).map (fun t => (t.halted, t.pc)) =
    some (true, 1#9) := by decide

/-- 95 section 2.4: `82 03 FF`. -/
theorem test_ldi : (nextOf (step (start 0 [0x82#8, 0x03#8, 0xFF#8]))).map (fun t => (t.regs[3], t.regs[7], t.pc)) =
    some (0xFF#8, 0xF4#8, 3#9) := by decide

/-- 95 section 2.4: `82 08 01` faults with no register written. -/
theorem test_ldi_index_8 : (faultIn (step (start 0 [0x82#8, 0x08#8, 0x01#8]))).map (fun f => (f.cause, f.faulted.pc, f.faulted.regs)) =
    some (.regIndexOutOfRange 8#8, 0#9, State.reset.regs) := by decide

/-- 95 section 2.4: `47 07` emits 244. -/
theorem test_prn : (nextOf (step (start 0 [0x47#8, 0x07#8]))).map (fun t => (t.out, t.pc)) =
    some ([244#8], 2#9) := by decide

/-- 95 section 2.5: 200 times 3 is 88, R1 unchanged. -/
theorem test_mul_wraps :
    (nextOf (step (start 0 [0xA2#8, 0x00#8, 0x01#8] #v[200#8, 3#8, 0, 0, 0, 0, 0, 0xF4#8]))).map
      (fun t => (t.regs[0], t.regs[1], t.pc)) = some (88#8, 3#8, 3#9) := by decide

/-- 95 section 2.5: `A2 02 02` squares 15 to 225. -/
theorem test_mul_square :
    (nextOf (step (start 0 [0xA2#8, 0x02#8, 0x02#8] #v[0, 0, 15#8, 0, 0, 0, 0, 0xF4#8]))).map (fun t => t.regs[2]) =
      some 225#8 := by decide

/-- 95 section 2.6: `45 07` pushes the decremented stack pointer. -/
theorem test_psh_sp : (nextOf (step (start 0 [0x45#8, 0x07#8]))).map (fun t => (t.regs[7], memRead t 0xF3#9 |>.toOption, t.pc)) =
    some (0xF3#8, some 0xF3#8, 2#9) := by decide

/-- 95 section 2.6: with R7 = 0 the push goes to 0xFF. -/
theorem test_psh_wraps :
    (nextOf (step (start 0 [0x45#8, 0x00#8] #v[0xAB#8, 0, 0, 0, 0, 0, 0, 0x00#8]))).map
      (fun t => (t.regs[7], memRead t 0xFF#9 |>.toOption)) = some (0xFF#8, some 0xAB#8) := by decide

/-- 95 section 2.6: `46 00` with R7 = 0 reads the POP opcode itself. -/
theorem test_pop_reads_code :
    (nextOf (step (start 0 [0x46#8, 0x00#8] #v[0, 0, 0, 0, 0, 0, 0, 0x00#8]))).map (fun t => (t.regs[0], t.regs[7], t.pc)) =
      some (0x46#8, 0x01#8, 2#9) := by decide

/-- 44_stack_psh_pop.md R121 (a): POP r7 leaves the byte read. -/
theorem test_pop_sp :
    (nextOf (exec (.pop 7#8) { start 0 [] #v[0, 0, 0, 0, 0, 0, 0, 0xF3#8] with mem := [(0xF3, 0x20#8)] })).map
      (fun t => (t.regs[7], t.mem)) = some (0x20#8, [(0xF3, 0x20#8)]) := by decide

/-! ## The loop, the ALU, the loader and the host's texts -/

/-- 95 section 2.2: HLT at 254 reports MemOutOfRange(256), pc stays. -/
theorem test_hlt_at_254 : (faultIn (step (start 254 [0x01#8]))).map (fun f => (f.cause, f.faulted.pc, f.faulted.halted)) =
    some (.memOutOfRange 256#9, 254#9, false) := by decide

/-- 95 section 2.2: an instruction at 253 completes and leaves pc = 256. -/
theorem test_ldi_at_253 : (nextOf (step (start 253 [0x82#8, 0x01#8, 0x07#8]))).map (fun t => (t.regs[1], t.pc)) =
    some (7#8, 256#9) := by decide

/-- 95 program P9: `11 01` is an unknown opcode. -/
theorem test_unknown_opcode : (faultIn (step (start 0 [0x11#8, 0x01#8]))).map (fun f => (f.cause, f.cause.code, f.cause.info)) =
    some (.unknownOpcode 0x11#8, 1, some 17) := by decide

/-- 95 section 2.5: the ALU's ADD. -/
theorem test_alu_add : (aluAdd 200#8 100#8, aluAdd 255#8 1#8, aluAdd 255#8 255#8) = (44#8, 0#8, 254#8) := by decide

/-- 30_encoding.md R64: the document's own lines, comments and all. -/
theorem test_load_text : parseLoadText "10000010 # LDI r0,8\n00000000\n\n# comment\n00001000\n".toList =
    some [0x82#8, 0x00#8, 0x08#8] := by decide

/-- A numeral that is not eight binary digits is refused (log 12). -/
theorem test_load_text_refuses : parseLoadText "0000002".toList = none := by decide

/-- 70_reset_and_hazards.md 2.7 vector: memory after a load of `82 00 08` at reset. -/
theorem test_launch : (launch [0x82#8, 0x00#8, 0x08#8]).map (fun t => (t.mem, t.pc)) =
    some ([(0, 0x82#8), (2, 0x08#8)], 0#9) := by decide

/-- 10_state.md R22: numerals without leading zeros. -/
theorem test_numerals : (decimalNumeral 0#8, decimalNumeral 72#8, decimalNumeral 255#8) =
    ("0".toList, "72".toList, "255".toList) := by decide

/-- 30_encoding.md R61: the spelling of instructions, legal index and bare number. -/
theorem test_instr_text : (instrText (.mul 0#8 1#8), instrText (.ldi 8#8 1#8)) = ("MUL r0,r1".toList, "LDI 8,1".toList) := by
  decide

/-- The placed instruction word is what the first step after reset runs. -/
theorem test_with_fetch_word : (nextOf (step (State.reset.withFetchWord 24 0x080182))).map (fun t => (t.regs[1], t.pc)) =
    some (8#8, 3#9) := by decide

/-- FL's bits L, G, E of the layout 00000LGE (10_state.md R19). -/
theorem test_flag_bits : let s := { State.reset with fl := 0b00000100#8 }
    (flagL s, flagG s, flagE s) = (true, false, false) := by decide

/-- The three states of the loop (40_execution_cycle.md R70), and the exit code of a fault is not zero. -/
theorem test_loop_states : (loopState State.reset, loopState { State.reset with halted := true },
    loopState (latch (.unknownOpcode 0#8) State.reset)) = (.running, .halted, .faulted) := by decide
theorem test_fault_exit_nonzero : Config.faultExitCode ≠ 0 := Nat.succ_ne_zero _

/-! ## Witnesses: states and operands that meet the hypotheses of each statement, at the ends of their ranges -/

theorem witness_LdiWritesImmediate : (0#8).toNat ≤ 7 ∧ (7#8).toNat ≤ 7 := by decide
theorem witness_PrnEmitsRegister : (7#8).toNat ≤ 7 := by decide
theorem witness_MulWritesProductModulo256 : (7#8).toNat ≤ 7 ∧ (7#8).toNat ≤ 7 := by decide
theorem witness_PshDecrementsThenStores :
    Memory.wf (start 0 [0x45#8, 0x07#8]).mem = true ∧ (7#8).toNat ≤ 7 ∧ (7#8) = (7#8) ∧ (0#8) ≠ (7#8) := by decide
theorem witness_PopLoadsThenIncrements : (7#8).toNat ≤ 7 ∧ (0#8) ≠ (7#8) := by decide
theorem witness_IllegalIndexFaultsWithoutEffect :
    7 < (8#8).toNat ∧ 7 < (255#8).toNat ∧ (7#8).toNat ≤ 7 ∧ Instr.pop 8#8 ∈ [Instr.pop 8#8] := by decide
theorem witness_NoHandlerReadsOrWritesPc :
    (fetch (start 253 [0x01#8])).isOk = true ∧ (∃ t, exec (.psh 7#8) (start 0 []) = .next t) ∧
    (∃ f, exec (.psh 8#8) (start 0 []) = .fault f) :=
  ⟨by decide, ⟨_, rfl⟩, ⟨_, rfl⟩⟩
theorem witness_MulIsCommutative :
    (∃ t, exec (.mul 0#8 7#8) (start 0 []) = .next t) ∧ (∃ u, exec (.mul 7#8 0#8) (start 0 []) = .next u) :=
  ⟨⟨_, rfl⟩, ⟨_, rfl⟩⟩
theorem witness_AluAddWrapsModulo256 : (0#8).toNat ≤ 7 ∧ (7#8).toNat ≤ 7 := by decide
theorem witness_UnsupportedAluOperationIsUnreachable :
    (start 256 []).fault = none ∧ ∃ f, step (start 256 []) = .fault f := ⟨rfl, ⟨_, rfl⟩⟩
theorem witness_WriteChangesThatCellOnly : Memory.wf (start 0 [1#8]).mem = true ∧ (255#9).toNat ≤ 255 := by decide
theorem witness_AddressesFrom256Fault : (255#9).toNat ≤ 255 ∧ 256 ≤ (256#9).toNat := by decide
theorem witness_RegistersAreOrdinaryStorage : (7#8).toNat ≤ 7 ∧ 7 < (8#8).toNat := by decide
theorem witness_RegisterSevenIsTheStackPointer :
    (6#8).toNat < 7 ∧ (7#8).toNat ≤ 7 ∧ Memory.wf State.reset.mem = true := by decide
theorem witness_ArithmeticIsExactThenReduced :
    (fetch (start 253 [0x01#8])).isOk = true ∧ setsPc 0x01#8 = false ∧ AluOp.add ∈ [AluOp.add, .mul] ∧ (7#8).toNat ≤ 7 := by
  decide
theorem witness_StackPointerWrapsModulo256 :
    Memory.wf (start 0 []).mem = true ∧
    (registerGet (start 0 [] #v[0, 0, 0, 0, 0, 0, 0, 0x00#8]) 7#8).toOption = some 0x00#8 ∧
    (registerGet (start 0 [] #v[0, 0, 0, 0, 0, 0, 0, 0xFF#8]) 7#8).toOption = some 0xFF#8 ∧
    (∀ r ∈ [0#8, 7#8], r.toNat ≤ 7) := by decide
theorem witness_PushPopRoundTripIsLifo :
    Memory.wf State.reset.mem = true ∧ (∀ r ∈ [0#8, 0#8, 6#8], r.toNat < 7) ∧ (∀ d ∈ [3#8, 4#8, 5#8], d.toNat < 7) ∧
    [3#8, 4#8, 5#8].Nodup ∧ [0#8, 0#8, 6#8].length = [3#8, 4#8, 5#8].length ∧
    [3#8, 4#8, 5#8][2]? = some 5#8 ∧ [0#8, 0#8, 6#8].reverse[2]? = some 0#8 := by decide
theorem witness_DispatchTableIsTheSixRows :
    (0x00#8) ∉ [0x01#8, 0x82#8, 0x47#8, 0xA2#8, 0x45#8, 0x46#8] := by decide
theorem witness_TwoHundredFiftyOpcodesAreUnknown : operandCount 0xC0#8 = 3 ∧ setsPc 0x10#8 = true := by decide
theorem witness_UnusedCandidateOperandsAreIgnored : operandCount 0x01#8 = 0 ∧ operandCount 0x47#8 = 1 := by decide
theorem witness_DecodedBytesAreTheEncoding :
    decodeBytes [0x47#8, 0x05#8, 0x01#8] = .ok (.prn 5#8, [0x01#8]) := rfl
theorem witness_LoadedProgramIsFetchedBack :
    Memory.wf State.reset.mem = true ∧
    (loadImage (encodeProgram ([.ldi 0#8 8#8] ++ .hlt :: [.pop 1#8])) State.reset).isSome = true ∧
    (encodeProgram [.ldi 0#8 8#8]).length ≤ 253 := by decide
theorem length_of_hlts (n : Nat) (q : List Instr) :
    (encodeProgram (List.replicate n .hlt ++ q)).length = n + (encodeProgram q).length := by
  induction n with
  | zero => simp
  | succ n ih => simp only [List.replicate_succ, List.cons_append, encodeProgram, List.length_append, ih, encode, List.length_cons, List.length_nil]; omega
theorem witness_LoadedProgramIsFetchedBack_last_address :
    (loadImage (encodeProgram (List.replicate 253 .hlt ++ .prn 7#8 :: [.hlt])) State.reset).isSome = true ∧
    (encodeProgram (List.replicate 253 .hlt ++ [])).length ≤ 253 := by
  rw [length_of_hlts, loadImage, length_of_hlts]
  exact ⟨rfl, le_refl 253⟩
theorem witness_StepRunsDecodedInstruction :
    Running (start 253 [0x82#8, 0x08#8, 0x01#8]) ∧ BytesAt (start 253 [0x82#8, 0x08#8, 0x01#8]) 0x82#8 0x08#8 0x01#8 ∧
    decode 0x82#8 0x08#8 0x01#8 = .ok (.ldi 8#8 1#8) ∧
    (∃ f, exec (.ldi 8#8 1#8) (start 253 [0x82#8, 0x08#8, 0x01#8]) = .fault f) ∧
    BytesAt (start 0 [0x82#8, 0x07#8, 0x01#8]) 0x82#8 0x07#8 0x01#8 ∧
    decode 0x82#8 0x07#8 0x01#8 = .ok (.ldi 7#8 1#8) ∧
    (∃ t, exec (.ldi 7#8 1#8) (start 0 [0x82#8, 0x07#8, 0x01#8]) = .next t) :=
  ⟨⟨rfl, rfl⟩, ⟨rfl, rfl, rfl⟩, rfl, ⟨_, rfl⟩, ⟨rfl, rfl, rfl⟩, rfl, ⟨_, rfl⟩⟩
theorem witness_UnknownOpcodeIsFatal :
    Running (start 253 [0xA0#8]) ∧ BytesAt (start 253 [0xA0#8]) 0xA0#8 0x00#8 0x00#8 ∧
    (0xA0#8) ∉ [0x01#8, 0x82#8, 0x47#8, 0xA2#8, 0x45#8, 0x46#8] ∧
    BytesAt (start 0 [0x46#8]) 0x46#8 0x00#8 0x00#8 ∧ (0x46#8) ∈ [0x01#8, 0x82#8, 0x47#8, 0xA2#8, 0x45#8, 0x46#8] :=
  ⟨⟨rfl, rfl⟩, ⟨rfl, rfl, rfl⟩, by decide, ⟨rfl, rfl, rfl⟩, by decide⟩
theorem witness_FetchPastMemoryFaults :
    Running (start 256 []) ∧ 256 ≤ (start 256 []).pc.toNat ∧ Running (start 254 [0x01#8]) ∧
    (start 254 [0x01#8]).pc.toNat = 254 ∧ (start 255 [0x01#8]).pc.toNat = 255 :=
  ⟨⟨rfl, rfl⟩, by decide, ⟨rfl, rfl⟩, rfl, rfl⟩
theorem witness_StepCompletesExactlyOnLegalInstructions :
    Running (start 253 [0x01#8]) ∧ (∃ t, step (start 253 [0x01#8]) = .next t) ∧ (start 253 [0x01#8]).pc.toNat ≤ 253 ∧
    BytesAt (start 253 [0x01#8]) 0x01#8 0x00#8 0x00#8 ∧ decode 0x01#8 0x00#8 0x00#8 = .ok .hlt ∧
    Instr.hlt.wellFormed = true :=
  ⟨⟨rfl, rfl⟩, ⟨_, rfl⟩, by decide, ⟨rfl, rfl, rfl⟩, rfl, rfl⟩
theorem witness_FaultsArePrecise :
    (start 0 [0x45#8, 0x08#8]).fault = none ∧ ∃ f, step (start 0 [0x45#8, 0x08#8]) = .fault f := ⟨rfl, ⟨_, rfl⟩⟩
theorem witness_ExecutionAscendsByOneTwoOrThree :
    Running (start 0 [0x01#8]) ∧ ∃ t, step (start 0 [0x01#8]) = .next t ∧ ¬ Running t :=
  ⟨⟨rfl, rfl⟩, _, rfl, by decide⟩
theorem witness_StepAddsInstructionLength :
    Running (start 253 [0x82#8, 0x01#8, 0x07#8]) ∧ memRead (start 253 [0x82#8, 0x01#8, 0x07#8]) 253#9 = .ok 0x82#8 ∧
    ∃ t, step (start 253 [0x82#8, 0x01#8, 0x07#8]) = .next t :=
  ⟨⟨rfl, rfl⟩, rfl, ⟨_, rfl⟩⟩
theorem witness_HaltedIsSetOnlyByHltAndNeverCleared :
    Running (start 0 [0x01#8]) ∧ (∃ t, step (start 0 [0x01#8]) = .next t) ∧
    (∃ t, step { State.reset with halted := true } = .next t) ∧ (∃ t, exec .hlt State.reset = .next t) ∧
    (∃ f, exec (.prn 8#8) State.reset = .fault f) :=
  ⟨⟨rfl, rfl⟩, ⟨_, rfl⟩, ⟨_, rfl⟩, ⟨_, rfl⟩, ⟨_, rfl⟩⟩
theorem witness_RunEndsWellExactlyOnHlt :
    Running (start 253 [0x01#8]) ∧ memRead (start 253 [0x01#8]) 253#9 = .ok 0x01#8 ∧
    ∃ t, step (start 253 [0x01#8]) = .next t ∧ EndedWell t :=
  ⟨⟨rfl, rfl⟩, rfl, _, rfl, rfl, rfl⟩
theorem witness_StoppedUnitChangesNothing :
    EndedWell { State.reset with halted := true } ∧
    (latch (.unknownOpcode 0#8) State.reset).fault = some (.unknownOpcode 0#8) := ⟨⟨rfl, rfl⟩, rfl⟩
theorem witness_FlagsAreNeitherWrittenNorRead :
    (∃ t, step (start 0 [0x47#8, 0x07#8]) = .next t) ∧ ∃ f, step (start 0 [0x47#8, 0x08#8]) = .fault f :=
  ⟨⟨_, rfl⟩, ⟨_, rfl⟩⟩
theorem witness_OutputIsAppendOnlyAndNotRead : ∃ t, step (start 0 [0x47#8, 0x07#8]) = .next t := ⟨_, rfl⟩
theorem witness_OnlyPrnEmits :
    ∃ t, step (start 0 [0x47#8, 0x07#8]) = .next t ∧ t.out ≠ (start 0 [0x47#8, 0x07#8]).out := ⟨_, rfl, by decide⟩
theorem witness_OnlyPshWritesMemory :
    Memory.wf (start 0 [0x45#8, 0x07#8]).mem = true ∧ ∃ t, step (start 0 [0x45#8, 0x07#8]) = .next t ∧
      (memRead t 0xF3#9).toOption ≠ (memRead (start 0 [0x45#8, 0x07#8]) 0xF3#9).toOption :=
  ⟨by decide, _, rfl, by decide⟩
theorem witness_RegistersAreWrittenAsTabled :
    ∃ t, step (start 0 [0x46#8, 0x00#8]) = .next t ∧
      (registerGet t 7#8).toOption ≠ (registerGet (start 0 [0x46#8, 0x00#8]) 7#8).toOption := ⟨_, rfl, by decide⟩
theorem witness_StoreIsSeenByTheNextFetch :
    Memory.wf (start 0 []).mem = true ∧ (∃ t, exec (.psh 0#8) (start 0 []) = .next t) ∧ (253#9).toNat ≤ 253 :=
  ⟨rfl, ⟨_, rfl⟩, by decide⟩
/-- The fetch meets the stored address: as in 95 program P5, SP = 9 and pc = 8 after the push. -/
theorem witness_StoreIsSeenByTheNextFetch_at_the_stored_byte :
    let s := start 6 [0x45#8, 0x00#8, 0x00#8] #v[0x01#8, 0, 0, 0, 0, 0, 0, 9#8]
    Memory.wf s.mem = true ∧ (8#9).toNat ≤ 253 ∧ ∃ t, exec (.psh 0#8) s = .next t ∧
      registerGet t 7#8 = .ok 8#8 ∧ (8#9) = zext9 8#8 :=
  ⟨by decide, by decide, _, rfl, rfl, rfl⟩
theorem witness_LegalStateIsKept :
    LegalState (start 0 [0x45#8, 0x07#8]) ∧ (∃ t, step (start 0 [0x45#8, 0x07#8]) = .next t) ∧
    LegalState (start 255 [0x01#8]) ∧ ∃ f, step (start 255 [0x01#8]) = .fault f :=
  ⟨⟨by decide, by decide, rfl, .inl rfl⟩, ⟨_, rfl⟩, ⟨by decide, by decide, rfl, .inl rfl⟩, ⟨_, rfl⟩⟩
theorem witness_LoaderKeepsLegalState :
    LegalState State.reset ∧ (loadImage [0x01#8] State.reset).isSome = true :=
  ⟨⟨rfl, by decide, rfl, .inl rfl⟩, rfl⟩
theorem witness_ResetLeavesTheStatedValues : (255#9).toNat ≤ 255 ∧ (6#8).toNat ≤ 6 := by decide
theorem witness_LoaderPlacesTheImage :
    Memory.wf State.reset.mem = true ∧ (List.replicate 256 0x01#8).length ≤ 256 ∧
    (List.replicate 256 0x01#8)[(255#9).toNat]? = some 0x01#8 ∧ [0x01#8].length ≤ (1#9).toNat ∧
    256 < (List.replicate 257 0x01#8).length := 
  ⟨rfl, List.length_replicate.le, rfl, by decide, List.length_replicate.symm.le⟩
theorem witness_EveryRunEndsWithin128Steps : Running State.reset ∧ Running (start 0 [0x01#8]) := ⟨⟨rfl, rfl⟩, ⟨rfl, rfl⟩⟩
theorem witness_LdiThenPrnOutputsTheValue :
    let s := start 250 [0x82#8, 0x07#8, 0x10#8, 0x47#8, 0x07#8]
    Running s ∧ s.pc.toNat ≤ 250 ∧ (7#8).toNat ≤ 7 ∧ BytesAt s 0x82#8 0x07#8 0x10#8 ∧
      memRead s (s.pc + 3) = .ok 0x47#8 ∧ memRead s (s.pc + 4) = .ok 0x07#8 :=
  by decide
theorem witness_CommentsAndBlankLinesAreSkipped : ∀ x ∈ [' ', ' '], x = ' ' := by simp

end Sys2Proof.Tests
end

section
/-! SUPPORT. Proofs about `pc` and `halted` (spec/10_state.md R16, R20). The idea: what a handler does is fixed by
its instruction, the memory and the registers alone, so it does the same on any state that agrees in those two. -/

namespace Sys2Proof.Machine

/-! ## What a handler does depends on memory and registers alone -/

/-- The state a handler leaves when it completes on `s`: memory and registers as given, `e` appended to the
output, halted if `stop`, and every other field of `s` as it was. -/
def State.completed (s : State) (m : Memory) (r : Vector Byte Config.nregs) (e : List Byte) (stop : Bool) : State :=
  { s with mem := m, regs := r, out := s.out ++ e, halted := stop || s.halted }

section
variable (s : State) (m : Memory) (r : Vector Byte Config.nregs) (e : List Byte) (stop : Bool)

@[simp] theorem completed_mem : (s.completed m r e stop).mem = m := rfl
@[simp] theorem completed_regs : (s.completed m r e stop).regs = r := rfl
@[simp] theorem completed_pc : (s.completed m r e stop).pc = s.pc := rfl
@[simp] theorem completed_fl : (s.completed m r e stop).fl = s.fl := rfl
@[simp] theorem completed_halted : (s.completed m r e stop).halted = (stop || s.halted) := rfl
@[simp] theorem completed_fault : (s.completed m r e stop).fault = s.fault := rfl
@[simp] theorem completed_out : (s.completed m r e stop).out = s.out ++ e := rfl

end

/-- Everything a handler can do, with the same memory, registers and output for every state that agrees with
`s` in memory and registers; an illegal register index faults whatever the state. -/
theorem exec_depends_on_mem_regs (i : Instr) (s : State) :
    (∃ m r e, e.length ≤ 1 ∧ ∀ s' : State, s'.mem = s.mem → s'.regs = s.regs →
      exec i s' = .next (s'.completed m r e (i == .hlt))) ∨
    (∃ x, ∀ s' : State, exec i s' = raise (.regIndexOutOfRange x) s') := by
  cases i with
  | hlt =>
    refine .inl ⟨s.mem, s.regs, [], by simp, fun s' hm hr => ?_⟩
    simp [exec, execHlt_eq, State.completed, ← hm, ← hr]
  | ldi a b =>
    by_cases ha : a.toNat < Config.nregs
    · refine .inl ⟨s.mem, s.regs.set a.toNat b, [], by simp, fun s' hm hr => ?_⟩
      simp [exec, execLdi_legal s' b ha, State.completed, ← hm, ← hr]
    · exact .inr ⟨a, fun s' => execLdi_illegal s' b ha⟩
  | prn a =>
    by_cases ha : a.toNat < Config.nregs
    · refine .inl ⟨s.mem, s.regs, [s.regs[a.toNat]], by simp, fun s' hm hr => ?_⟩
      simp [exec, execPrn_legal s' ha, State.completed, ← hm, ← hr]
    · exact .inr ⟨a, fun s' => execPrn_illegal s' ha⟩
  | mul a b =>
    by_cases ha : a.toNat < Config.nregs
    · by_cases hb : b.toNat < Config.nregs
      · refine .inl ⟨s.mem, s.regs.set a.toNat (aluMul s.regs[a.toNat] s.regs[b.toNat]), [], by simp,
          fun s' hm hr => ?_⟩
        simp [exec, execMul_legal s' ha hb, State.completed, ← hm, ← hr]
      · exact .inr ⟨b, fun s' => execMul_illegal_second s' ha hb⟩
    · exact .inr ⟨a, fun s' => execMul_illegal_first s' ha⟩
  | psh a =>
    by_cases ha : a.toNat < Config.nregs
    · refine .inl ⟨Memory.put s.mem (s.regs[7] - 1).toNat ((s.regs.set 7 (s.regs[7] - 1))[a.toNat]),
        s.regs.set 7 (s.regs[7] - 1), [], by simp, fun s' hm hr => ?_⟩
      simp [exec, execPsh_legal s' ha, State.completed, ← hm, ← hr]
    · exact .inr ⟨a, fun s' => execPsh_illegal s' ha⟩
  | pop a =>
    by_cases ha : a.toNat < Config.nregs
    · refine .inl ⟨s.mem, (s.regs.set 7 (s.regs[7] + 1)).set a.toNat (Memory.get s.mem s.regs[7].toNat), [],
        by simp, fun s' hm hr => ?_⟩
      simp [exec, execPop_legal s' ha, State.completed, ← hm, ← hr]
    · exact .inr ⟨a, fun s' => execPop_illegal s' ha⟩

/-- A handler that completes does the same on every state that agrees in memory and registers. -/
theorem exec_next_replays {i : Instr} {s t : State} (h : exec i s = .next t) :
    ∃ m r e, e.length ≤ 1 ∧ t = s.completed m r e (i == .hlt) ∧
      ∀ s' : State, s'.mem = s.mem → s'.regs = s.regs → exec i s' = .next (s'.completed m r e (i == .hlt)) := by
  rcases exec_depends_on_mem_regs i s with ⟨m, r, e, he, hx⟩ | ⟨x, hx⟩
  · rw [hx s rfl rfl, Host.Outcome.next.injEq] at h
    exact ⟨m, r, e, he, h.symm, hx⟩
  · rw [hx s] at h; cases h

/-- A handler that faults on one state faults with the same cause on every state: it is the register index of
the instruction that is illegal. -/
theorem exec_fault_replays {i : Instr} {s : State} {f : Fault} (h : exec i s = .fault f) (s' : State) :
    ∃ g, exec i s' = .fault g ∧ g.cause = f.cause := by
  rcases exec_depends_on_mem_regs i s with ⟨m, r, e, -, hx⟩ | ⟨x, hx⟩
  · rw [hx s rfl rfl] at h; cases h
  · rw [hx s, raise, Host.Outcome.fault.injEq] at h
    exact ⟨_, hx s', by rw [← h, faultOf_cause, faultOf_cause]⟩

/-! ## The opcode of HLT -/

theorem lookup_mem {op : Byte} {k : Handler} (h : lookup op = some k) : (op, k) ∈ dispatchTable := by
  obtain ⟨row, hrow, rfl⟩ := Option.map_eq_some_iff.mp h
  have hop : row.1 = op := by simpa using List.find?_some hrow
  exact hop ▸ List.mem_of_find?_eq_some hrow

theorem lookup_eq_halt_iff {op : Byte} : lookup op = some .halt ↔ op = 0x01#8 := by
  refine ⟨fun h => ?_, fun h => h ▸ rfl⟩
  simpa [dispatchTable] using lookup_mem h

theorem handler_instr_eq_hlt_iff {k : Handler} {a b : Byte} : k.instr a b = .hlt ↔ k = .halt := by
  cases k <;> simp [Handler.instr]

/-- Of the bytes that decode, 0x01 alone decodes to HLT (R57). -/
theorem decode_hlt_iff {op a b : Byte} {i : Instr} (h : decode op a b = .ok i) : i = .hlt ↔ op = 0x01#8 := by
  obtain ⟨k, hk, rfl⟩ := decode_ok h
  rw [handler_instr_eq_hlt_iff, ← lookup_eq_halt_iff, hk, Option.some.injEq]

/-! ## What a completed step leaves in `halted` -/

/-- A step of a Running unit leaves `halted` set exactly when it fetched HLT's opcode. -/
theorem step_halts_iff {s t : State} (hs : Running s) (h : step s = .next t) :
    t.halted = true ↔ memRead s s.pc = .ok 0x01#8 := by
  rcases step_next_cases s h with ⟨-, hh, -⟩ | ⟨-, hh, f, i, u, hf, hi, hu, rfl⟩
  · rw [hs.1] at hh; cases hh
  · obtain ⟨m, r, e, -, rfl, -⟩ := exec_next_replays hu
    rw [(fetch_ok s hf).1, Except.ok.injEq, ← decode_hlt_iff hi]
    simp [hh]

/-- A step that completes from a halted state changes nothing. -/
theorem step_next_of_halted {s t : State} (hh : s.halted = true) (h : step s = .next t) : t = s := by
  rcases step_next_cases s h with ⟨-, -, ht⟩ | ⟨-, hr, -⟩
  · exact ht
  · rw [hh] at hr; cases hr

/-! ## The obligations -/

/-- Settles O8: `State.completed` takes `pc` over from the state it is applied to, and a handler's answer is
fixed by memory and registers. -/
theorem noHandlerReadsOrWritesPc : Obligations.NoHandlerReadsOrWritesPc := by
  refine ⟨rfl, fun s f hf => (fetch_ok s hf).1, fun i s t h => ?_, fun i s t p h => ?_,
    fun i s f p h => exec_fault_replays h _⟩
  · obtain ⟨m, r, e, -, rfl, -⟩ := exec_next_replays h
    exact completed_pc s m r e _
  · obtain ⟨m, r, e, -, rfl, hx⟩ := exec_next_replays h
    exact hx { s with pc := p } rfl rfl

/-- Settles O34: HLT alone sets `halted`, a Halted unit's step answers its own state, and a handler's answer is
fixed by memory and registers. -/
theorem haltedIsSetOnlyByHltAndNeverCleared : Obligations.HaltedIsSetOnlyByHltAndNeverCleared := by
  refine ⟨rfl, fun s t => step_halts_iff, fun s t => step_next_of_halted, fun i s t b hrun => ?_,
    fun i s f b hrun => exec_fault_replays hrun _⟩
  obtain ⟨m, r, e, -, rfl, hx⟩ := exec_next_replays hrun
  exact ⟨_, hx { s with halted := b } rfl rfl⟩

end Sys2Proof.Machine
end

section
/-! SUPPORT. Proofs about memory writes and the stack pointer (spec/20_memory.md R32, R40). The idea for the stack:
one lemma each for what a push and a pop of a legal register leave, the wrap staying in 8-bit arithmetic; a list of
pushes is the first lemma iterated, and only the statements turn the subtraction into an integer modulo 256. -/

namespace Sys2Proof.Machine

/-! ## Reading the stack pointer -/

theorem registerGet_sp_ok_iff {s : State} {sp : Byte} : registerGet s 7#8 = .ok sp ↔ s.regs[7] = sp := by
  rw [registerGet_sp s, Except.ok.injEq]

theorem registerGet_sp_of_regs_set {s t : State} {v : Byte} (ht : t.regs = s.regs.set 7 v) :
    registerGet t 7#8 = .ok v :=
  (registerGet_of_regs_set (i := 7#8) (by decide) ht).1

/-- What a pop leaves in the registers: SP is set first, then the register named, so that r7 itself ends with
the byte popped. -/
theorem registerGet_of_regs_set_sp_set {s t : State} {a v sp : Byte} (ha : a.toNat < Config.nregs)
    (ht : t.regs = (s.regs.set 7 sp).set a.toNat v) :
    registerGet t a = .ok v ∧ (a ≠ 7#8 → registerGet t 7#8 = .ok sp) := by
  obtain ⟨hget, hkept⟩ := registerGet_of_regs_set (s := { s with regs := s.regs.set 7 sp }) ha ht
  exact ⟨hget, fun hne => (hkept _ hne.symm).trans (registerGet_sp_of_regs_set (s := s) rfl)⟩

/-! ## One push and one pop -/

/-- A push of a legal register completes at every SP: it leaves SP - 1 in r7 and, at that address, what the register
holds after the push; memory stays canonical. -/
theorem exec_psh_completes {a sp : Byte} {s : State} (hwf : Memory.wf s.mem = true)
    (hsp : registerGet s 7#8 = .ok sp) (ha : a.toNat < Config.nregs) :
    ∃ t v, exec (.psh a) s = .next t ∧ Memory.wf t.mem = true ∧ registerGet t 7#8 = .ok (sp - 1) ∧
      registerGet t a = .ok v ∧ memRead t (zext9 (sp - 1)) = .ok v := by
  obtain rfl := registerGet_sp_ok_iff.mp hsp
  refine ⟨_, _, execPsh_legal s ha, Memory.wf_put _ (s.regs[7] - 1).isLt hwf,
    registerGet_sp_of_regs_set (s := s) rfl, registerGet_legal _ ha, ?_⟩
  rw [memRead_cell _ (zext9_lt _), zext9_toNat, Memory.get_put hwf, if_pos rfl]

/-- A pop into a legal register completes at every SP: the register holds the byte at the old SP, and unless it is
r7 itself, r7 holds SP + 1. -/
theorem exec_pop_completes {a sp : Byte} {s : State} (hsp : registerGet s 7#8 = .ok sp)
    (ha : a.toNat < Config.nregs) :
    ∃ t v, exec (.pop a) s = .next t ∧ memRead s (zext9 sp) = .ok v ∧ registerGet t a = .ok v ∧
      (a ≠ 7#8 → registerGet t 7#8 = .ok (sp + 1)) := by
  obtain rfl := registerGet_sp_ok_iff.mp hsp
  refine ⟨_, _, execPop_legal s ha, ?_, registerGet_of_regs_set_sp_set (s := s) ha rfl⟩
  rw [memRead_cell _ (zext9_lt _), zext9_toNat]

/-! ## Many pushes -/

/-- N pushes of legal registers complete and leave SP - N, in the 8 bits of the register. -/
theorem execAll_psh_completes : ∀ {rs : List Byte} {s : State} {sp : Byte}, Memory.wf s.mem = true →
    registerGet s 7#8 = .ok sp → (∀ r ∈ rs, r.toNat < Config.nregs) →
    ∃ t, execAll (rs.map Instr.psh) s = .next t ∧ registerGet t 7#8 = .ok (sp - BitVec.ofNat 8 rs.length)
  | [], s, sp, _, hsp, _ => ⟨s, rfl, by simpa using hsp⟩
  | r :: rs, s, sp, hwf, hsp, hrs => by
    obtain ⟨hr, hrs'⟩ := List.forall_mem_cons.mp hrs
    obtain ⟨u, -, hu, hwfu, hspu, -, -⟩ := exec_psh_completes hwf hsp hr
    obtain ⟨t, ht, hspt⟩ := execAll_psh_completes hwfu hspu hrs'
    refine ⟨t, ?_, ?_⟩
    · simp only [List.map_cons, execAll, hu, ht]
    · have hlen : sp - 1 - BitVec.ofNat 8 rs.length = sp - BitVec.ofNat 8 (rs.length + 1) := by
        rw [BitVec.ofNat_add]; bv_omega
      rw [hspt, hlen, List.length_cons]

/-- Subtraction in 8 bits is integer subtraction modulo 256. -/
theorem intCast_toNat_sub_ofNat (x : Byte) (n : Nat) :
    ((x - BitVec.ofNat 8 n).toNat : Int) = ((x.toNat : Int) - n) % 256 := by
  rw [BitVec.toNat_sub, BitVec.toNat_ofNat]
  omega

/-! ## The obligations -/

/-- Settles O12: a cell of memory accepts the write, and `memWrite_ok` says everything a write that completed did. -/
theorem writeChangesThatCellOnly : Obligations.WriteChangesThatCellOnly := by
  intro s a v hwf ha
  have hw := memWrite_cell s v (Nat.lt_succ_of_le ha)
  obtain ⟨-, hread, hmem, -, hregs, hpc, hfl, hhalted, hfault, hout⟩ := memWrite_ok hwf hw
  exact ⟨_, hw, hread, fun b hb => hmem b (by simpa using hb), fun r _ => registerGet_congr hregs r,
    ⟨hfl, hhalted, hfault, hpc⟩, hout⟩

/-- Settles O17: a push leaves SP - 1, a pop SP + 1, both in 8 bits and at every SP; the edges 0x00 and 0xFF are
instances. -/
theorem stackPointerWrapsModulo256 : Obligations.StackPointerWrapsModulo256 := by
  intro s hwf sp hsp
  have legal : ∀ {r : Byte}, r.toNat ≤ 7 → r.toNat < Config.nregs := Nat.lt_succ_of_le
  refine ⟨registerGet_sp_ok_iff.mp hsp ▸ stackAddress_eq s, fun rs hrs => ?_, fun a ha => ?_, fun a ha => ?_,
    fun a ha h0 => ?_, fun a ha hFF => ?_⟩
  · obtain ⟨t, ht, hspt⟩ := execAll_psh_completes hwf hsp fun r hr => legal (hrs r hr)
    exact ⟨t, _, ht, hspt, intCast_toNat_sub_ofNat sp rs.length⟩
  · obtain ⟨t, v, ht, -, hspt, hv, hm⟩ := exec_psh_completes hwf hsp (legal ha)
    exact ⟨t, v, _, ht, hspt, intCast_toNat_sub_ofNat sp 1, hv, hm⟩
  · obtain ⟨t, v, ht, hm, hv, hspt⟩ := exec_pop_completes hsp (legal ha)
    exact ⟨t, v, ht, hm, hv, fun hne => ⟨_, hspt hne, BitVec.toNat_add sp 1⟩⟩
  · subst h0
    obtain ⟨t, v, ht, -, hspt, hv, hm⟩ := exec_psh_completes hwf hsp (legal ha)
    exact ⟨t, v, ht, hspt, hv, hm⟩
  · subst hFF
    exact exec_pop_completes hsp (legal ha)

end Sys2Proof.Machine
end

section
/-! SUPPORT. Proof about the instruction length (spec/40_execution_cycle.md R73). The idea: to mask with `0b11` is to
reduce modulo 4, and so is to take a field of two bits. -/

namespace Sys2Proof.Machine

/-- The two-bit field `op[7:6]` is the opcode shifted right by 6 and masked with `0b11`, as R73 computes it. -/
theorem operandCount_eq_shift_mask (op : Byte) : operandCount op = ((op >>> 6) &&& 0b11#8).toNat :=
  calc operandCount op
    _ = (op.toNat >>> 6) % 2 ^ 2 := BitVec.extractLsb'_toNat 6 2 op
    _ = (op.toNat >>> 6) &&& 0b11 := (Nat.and_two_pow_sub_one_eq_mod _ 2).symm
    _ = ((op >>> 6) &&& 0b11#8).toNat := by rw [BitVec.toNat_and, BitVec.toNat_ushiftRight, BitVec.toNat_ofNat]

/-- Settles O20: the count is R73's shift and mask for every byte, and the length is by definition one more. -/
theorem lengthIsTopTwoBitsPlusOne : Obligations.LengthIsTopTwoBitsPlusOne :=
  fun op => ⟨operandCount_eq_shift_mask op, rfl⟩

end Sys2Proof.Machine
end

section
/-! SUPPORT. Proofs about the handlers one by one (spec/41 to 44): what each changes and what it leaves. The idea:
one rule for the register write and one for the ALU give completion, value and frame together; a push and a pop are
read off their equations, and every statement about an instruction follows from these. -/

namespace Sys2Proof.Machine

/-! ## Legal indices and frames -/

/-- The statements write a legal index as "0 to 7", the model as "below `NREGS`". -/
theorem lt_nregs_of_le_seven {i : Byte} (h : i.toNat ≤ 7) : i.toNat < Config.nregs := Nat.lt_succ_of_le h

theorem not_lt_nregs_of_seven_lt {i : Byte} (h : 7 < i.toNat) : ¬ i.toNat < Config.nregs := Nat.not_lt.mpr h

theorem memRead_of_le_255 (s : State) {x : Addr} (h : x.toNat ≤ 255) : memRead s x = .ok (Memory.get s.mem x.toNat) :=
  memRead_cell s (Nat.lt_succ_of_le h)

theorem memoryKeptBut_of_mem_eq {s t : State} (h : t.mem = s.mem) (xs : List Addr) : MemoryKeptBut xs s t :=
  fun x _ => memRead_congr h x

theorem registersKeptBut_of_regs_eq {s t : State} (h : t.regs = s.regs) (rs : List Byte) : RegistersKeptBut rs s t :=
  fun r _ => registerGet_congr h r

theorem registersKeptBut_of_regs_set {s t : State} {i v : Byte} (hi : i.toNat < Config.nregs)
    (ht : t.regs = s.regs.set i.toNat v) : RegistersKeptBut [i] s t :=
  fun j hj => (registerGet_of_regs_set hi ht).2 j (List.ne_of_not_mem_cons hj)

/-! ## The register write and the ALU -/

/-- A write to a legal register completes; the register holds the value and nothing else changes. -/
theorem registerSet_completes (s : State) {i : Byte} (v : Byte) (hi : i.toNat < Config.nregs) :
    ∃ t, registerSet s i v = .ok t ∧ registerGet t i = .ok v ∧
      RegistersKeptBut [i] s t ∧ MemoryKeptBut [] s t ∧ ControlKept s t ∧ t.out = s.out :=
  ⟨_, registerSet_legal s v hi, (registerGet_of_regs_set (s := s) hi rfl).1,
    registersKeptBut_of_regs_set hi rfl, memoryKeptBut_of_mem_eq rfl [], ⟨rfl, rfl, rfl, rfl⟩, rfl⟩

/-- An operation of the ALU on legal registers completes; the first register holds the result on the two old values
and nothing else changes. -/
theorem aluBinary_completes (f : Byte → Byte → Byte) (s : State) {a b : Byte} (ha : a.toNat < Config.nregs)
    (hb : b.toNat < Config.nregs) :
    ∃ t x y, aluBinary f a b s = .ok t ∧ registerGet s a = .ok x ∧ registerGet s b = .ok y ∧
      registerGet t a = .ok (f x y) ∧
      RegistersKeptBut [a] s t ∧ MemoryKeptBut [] s t ∧ ControlKept s t ∧ t.out = s.out := by
  obtain ⟨t, ht, hget, hframe⟩ := registerSet_completes s (f s.regs[a.toNat] s.regs[b.toNat]) ha
  refine ⟨t, _, _, ?_, registerGet_legal s ha, registerGet_legal s hb, hget, hframe⟩
  rw [aluBinary_legal f s ha hb, ← ht, registerSet_legal s _ ha]

/-- MUL on legal registers completes with the ALU's product. -/
theorem exec_mul_completes (s : State) {a b : Byte} (ha : a.toNat < Config.nregs) (hb : b.toNat < Config.nregs) :
    ∃ t x y, exec (.mul a b) s = .next t ∧ registerGet s a = .ok x ∧ registerGet s b = .ok y ∧
      registerGet t a = .ok (aluMul x y) ∧
      RegistersKeptBut [a] s t ∧ MemoryKeptBut [] s t ∧ ControlKept s t ∧ t.out = s.out := by
  obtain ⟨t, x, y, ht, hframe⟩ := aluBinary_completes aluMul s ha hb
  exact ⟨t, x, y, settle_next.mpr ht, hframe⟩

theorem aluMul_comm (x y : Byte) : aluMul x y = aluMul y x := by
  unfold aluMul; rw [Nat.mul_comm]

/-! ## The stack instructions -/

/-- What a push of a legal register leaves outside memory, on any memory. -/
theorem exec_psh_registers (s : State) {a : Byte} (ha : a.toNat < Config.nregs) :
    ∃ t, exec (.psh a) s = .next t ∧ registerGet t 7#8 = .ok (s.regs[7] - 1) ∧
      RegistersKeptBut [7#8] s t ∧ ControlKept s t ∧ t.out = s.out :=
  ⟨_, execPsh_legal s ha, registerGet_sp_of_regs_set (s := s) rfl,
    registersKeptBut_of_regs_set (i := 7#8) (by decide) rfl, ⟨rfl, rfl, rfl, rfl⟩, rfl⟩

/-- A push changes no byte but the one at the new stack pointer. -/
theorem exec_psh_memory_kept {s t : State} {a : Byte} (hwf : Memory.wf s.mem = true) (ha : a.toNat < Config.nregs)
    (h : exec (.psh a) s = .next t) : MemoryKeptBut [zext9 (s.regs[7] - 1)] s t := by
  intro x hx
  have ht := execPsh_legal s ha
  rw [show execPsh a s = .next t from h, Host.Outcome.next.injEq] at ht
  have hne : x.toNat ≠ (s.regs[7] - 1).toNat := fun e =>
    hx (List.mem_singleton.mpr (BitVec.eq_of_toNat_eq (e.trans (zext9_toNat _).symm)))
  by_cases hx' : x.toNat < Config.memSize
  · rw [memRead_cell _ hx', memRead_cell _ hx', ht, Memory.get_put hwf, if_neg hne]
  · rw [memRead_outside _ hx', memRead_outside _ hx']

/-- What a pop into a legal register leaves but the registers it writes. -/
theorem exec_pop_frame {s t : State} {a : Byte} (ha : a.toNat < Config.nregs) (h : exec (.pop a) s = .next t) :
    RegistersKeptBut [7#8, a] s t ∧ t.mem = s.mem ∧ ControlKept s t ∧ t.out = s.out := by
  have ht := execPop_legal s ha
  rw [show execPop a s = .next t from h, Host.Outcome.next.injEq] at ht
  subst ht
  refine ⟨fun r hr => ?_, rfl, ⟨rfl, rfl, rfl, rfl⟩, rfl⟩
  obtain ⟨h7, hra⟩ : r ≠ 7#8 ∧ r ≠ a := by simpa using hr
  calc registerGet _ r
    _ = registerGet { s with regs := s.regs.set 7 (s.regs[7] + 1) } r :=
        (registerGet_of_regs_set (s := { s with regs := s.regs.set 7 (s.regs[7] + 1) }) ha rfl).2 r hra
    _ = registerGet s r := (registerGet_of_regs_set (s := s) (i := 7#8) (by decide) rfl).2 r h7

/-! ## Running handlers one after the other -/

theorem execAll_cons_of_next {i : Instr} {is : List Instr} {s t : State} (h : exec i s = .next t) :
    execAll (i :: is) s = execAll is t := by
  simp only [execAll, h]

theorem execAll_append_of_next : ∀ {is js : List Instr} {s t : State}, execAll is s = .next t →
    execAll (is ++ js) s = execAll js t
  | [], js, s, t, h => by cases h; rfl
  | i :: is, js, s, t, h => by
    cases hi : exec i s with
    | next u =>
      rw [execAll_cons_of_next hi] at h
      rw [List.cons_append, execAll_cons_of_next hi, execAll_append_of_next h]
    | fault f => simp [execAll, hi] at h
    | refused q => simp [execAll, hi] at h

/-! ## The obligations -/

/-- Settles O1: HLT's equation. -/
theorem hltCompletesAndOnlyHalts : Obligations.HltCompletesAndOnlyHalts := fun s =>
  ⟨_, execHlt_eq s, rfl, registersKeptBut_of_regs_eq rfl [], memoryKeptBut_of_mem_eq rfl [], rfl, rfl, rfl, rfl⟩

/-- Settles O2: LDI is the register write, settled. -/
theorem ldiWritesImmediate : Obligations.LdiWritesImmediate := by
  intro a b s ha
  obtain ⟨t, ht, hframe⟩ := registerSet_completes s b (lt_nregs_of_le_seven ha)
  exact ⟨t, settle_next.mpr ht, hframe⟩

/-- Settles O3: PRN's equation on a legal index. -/
theorem prnEmitsRegister : Obligations.PrnEmitsRegister := by
  intro a s ha
  have ha := lt_nregs_of_le_seven ha
  exact ⟨_, _, execPrn_legal s ha, registerGet_legal s ha, rfl, registersKeptBut_of_regs_eq rfl [],
    memoryKeptBut_of_mem_eq rfl [], rfl, rfl, rfl, rfl⟩

/-- Settles O4: MUL is the ALU's product, which is exact and then reduced. -/
theorem mulWritesProductModulo256 : Obligations.MulWritesProductModulo256 := by
  intro a b s ha hb
  obtain ⟨t, x, y, ht, hx, hy, hz, hframe⟩ :=
    exec_mul_completes s (lt_nregs_of_le_seven ha) (lt_nregs_of_le_seven hb)
  exact ⟨t, x, y, _, ht, hx, hy, hz, aluMul_toNat x y, hframe⟩

/-- Settles O5: the stored byte is what the register holds after the push; the decrement wrote r7 alone, so for any
other register that is its old value. -/
theorem pshDecrementsThenStores : Obligations.PshDecrementsThenStores := by
  intro a s hwf ha
  have ha := lt_nregs_of_le_seven ha
  obtain ⟨t, v, ht, -, hsp, hv, hm⟩ := exec_psh_completes hwf (registerGet_sp s) ha
  obtain ⟨t', ht', -, hregs, hcontrol, hout⟩ := exec_psh_registers s ha
  obtain rfl : t = t' := Host.Outcome.next.inj (ht.symm.trans ht')
  refine ⟨t, _, v, ht, registerGet_sp s, hsp, fun h7 => ?_, fun h7 => ?_, hm, hregs,
    exec_psh_memory_kept hwf ha ht, hcontrol, hout⟩
  · subst h7
    exact Except.ok.inj (hv.symm.trans hsp)
  · rw [← hv, hregs a (by simpa using h7)]

/-- Settles O6: a pop completes at every SP and writes the two registers alone. -/
theorem popLoadsThenIncrements : Obligations.PopLoadsThenIncrements := by
  intro a s ha
  have ha := lt_nregs_of_le_seven ha
  obtain ⟨t, v, ht, hm, hv, hsp⟩ := exec_pop_completes (registerGet_sp s) ha
  obtain ⟨hregs, hmem, hcontrol, hout⟩ := exec_pop_frame ha ht
  exact ⟨t, _, v, ht, registerGet_sp s, hm, hv, hsp, hregs, memoryKeptBut_of_mem_eq hmem [], hcontrol, hout⟩

/-- Settles O7: each handler's equation on an illegal index raises from the state before it. -/
theorem illegalIndexFaultsWithoutEffect : Obligations.IllegalIndexFaultsWithoutEffect := by
  refine fun a b s => ⟨fun ha => ?_, fun ha hb =>
    execMul_illegal_second s (lt_nregs_of_le_seven ha) (not_lt_nregs_of_seven_lt hb)⟩
  have ha := not_lt_nregs_of_seven_lt ha
  simp only [List.forall_mem_cons]
  exact ⟨execLdi_illegal s b ha, execPrn_illegal s ha, execMul_illegal_first s ha, execPsh_illegal s ha,
    execPop_illegal s ha, fun _ h => nomatch h⟩

/-- Settles O9: the two products are of the same two old values, and the product is commutative. -/
theorem mulIsCommutative : Obligations.MulIsCommutative := by
  intro a b s t u ht hu
  rcases exec_cases s (.mul a b) with ⟨hwf, -⟩ | ⟨-, x, hx⟩
  · obtain ⟨ha, hb⟩ : a.toNat < Config.nregs ∧ b.toNat < Config.nregs := by
      simpa [Instr.wellFormed, legalIndex] using hwf
    obtain ⟨t', x, y, ht', hx, hy, hz, -⟩ := exec_mul_completes s ha hb
    obtain ⟨u', y', x', hu', hy', hx', hz', -⟩ := exec_mul_completes s hb ha
    obtain rfl : t' = t := Host.Outcome.next.inj (ht'.symm.trans ht)
    obtain rfl : u' = u := Host.Outcome.next.inj (hu'.symm.trans hu)
    obtain rfl : x' = x := Except.ok.inj (hx'.symm.trans hx)
    obtain rfl : y' = y := Except.ok.inj (hy'.symm.trans hy)
    rw [hz, hz', aluMul_comm]
  · rw [ht] at hx; cases hx

/-- Settles O10: ADD is the ALU's sum, which is exact and then reduced. -/
theorem aluAddWrapsModulo256 : Obligations.AluAddWrapsModulo256 := by
  intro a b s ha hb
  obtain ⟨t, x, y, ht, hx, hy, hz, hframe⟩ :=
    aluBinary_completes aluAdd s (lt_nregs_of_le_seven ha) (lt_nregs_of_le_seven hb)
  exact ⟨t, x, y, _, ht, hx, hy, hz, aluAdd_toNat x y, hframe⟩

/-- Settles O13: the bounds check of both operations. -/
theorem addressesFrom256Fault : Obligations.AddressesFrom256Fault := by
  refine fun s a v => ⟨fun ha => ?_, fun ha => ?_⟩
  · exact ⟨⟨_, memRead_of_le_255 s ha⟩, _, memWrite_cell s v (Nat.lt_succ_of_le ha)⟩
  · have ha : ¬ a.toNat < Config.memSize := Nat.not_lt.mpr ha
    exact ⟨memRead_outside s ha, memWrite_outside s v ha⟩

/-- Settles O14: the register write with its frame, and the index check. -/
theorem registersAreOrdinaryStorage : Obligations.RegistersAreOrdinaryStorage := fun s _ v =>
  ⟨fun hi => registerSet_completes s v (lt_nregs_of_le_seven hi), fun hi =>
    ⟨registerGet_illegal s (not_lt_nregs_of_seven_lt hi), registerSet_illegal s v (not_lt_nregs_of_seven_lt hi)⟩⟩

/-- Settles O15: the statements about the instructions, at index 7. -/
theorem registerSevenIsTheStackPointer : Obligations.RegisterSevenIsTheStackPointer := by
  have h7 : (7#8).toNat ≤ 7 := le_rfl
  refine ⟨rfl, fun r s hr => ?_, fun s v => ?_, fun s => ?_, fun s b hb => ?_, fun s hwf => ?_, fun s => ?_,
    fun s r v hr => ?_⟩
  · obtain ⟨t, ht, hpsh, -⟩ := exec_psh_registers s (lt_nregs_of_le_seven hr.le)
    obtain ⟨u, -, hu, -, -, hpop⟩ := exec_pop_completes (registerGet_sp s) (lt_nregs_of_le_seven hr.le)
    exact ⟨t, u, _, registerGet_sp s, ht, hpsh, hu, hpop (fun e => absurd hr (e ▸ lt_irrefl 7))⟩
  · obtain ⟨t, ht, hv, -⟩ := ldiWritesImmediate 7#8 v s h7
    exact ⟨t, ht, hv⟩
  · obtain ⟨t, sp, ht, hsp, hout, -⟩ := prnEmitsRegister 7#8 s h7
    exact ⟨t, sp, hsp, ht, hout⟩
  · obtain ⟨t, sp, y, z, ht, hsp, hy, hz, hzval, -⟩ := mulWritesProductModulo256 7#8 b s h7 hb
    exact ⟨t, sp, y, z, hsp, hy, ht, hz, hzval⟩
  · obtain ⟨t, sp, v, ht, hsp, -, hv, -, hm, -⟩ := pshDecrementsThenStores 7#8 s hwf h7
    exact ⟨t, sp, hsp, ht, hv rfl ▸ hm⟩
  · obtain ⟨t, sp, v, ht, hsp, hm, hv, -⟩ := popLoadsThenIncrements 7#8 s h7
    exact ⟨t, sp, v, hsp, hm, ht, hv⟩
  · obtain ⟨t, ht, hv, -, -, -, hout⟩ := ldiWritesImmediate r v s hr
    obtain ⟨u, w, hu, hw, huout, -⟩ := prnEmitsRegister r t hr
    obtain rfl : v = w := Except.ok.inj (hv.symm.trans hw)
    refine ⟨u, ?_, huout.trans (hout ▸ rfl)⟩
    rw [execAll_cons_of_next ht, execAll_cons_of_next hu, execAll]

end Sys2Proof.Machine
end

section
/-! SUPPORT. Proofs about decoding and encoding (spec/30_encoding.md). The idea: three bytes decode to an instruction
exactly when its encoding begins them; every statement about byte strings, and about a program read back
through memory, is that equivalence applied to another string. -/

namespace Sys2Proof

/-! ## The six opcodes -/

/-- The opcode bytes of the map (R57), as the statements list them. -/
abbrev knownOpcodes : List Byte := [0x01#8, 0x82#8, 0x47#8, 0xA2#8, 0x45#8, 0x46#8]

/-- The bytes with a handler are the six opcodes (R57, R60). -/
theorem lookup_eq_none_iff {op : Byte} :
    lookup op = none ↔ op ∉ knownOpcodes := by
  simp [knownOpcodes, lookup, dispatchTable, @eq_comm _ op]

theorem mem_knownOpcodes_of_decode {op a b : Byte} {i : Instr} (h : decode op a b = .ok i) :
    op ∈ knownOpcodes := by
  obtain ⟨k, hk, -⟩ := Machine.decode_ok h
  by_contra hop
  rw [lookup_eq_none_iff.mpr hop] at hk
  cases hk

/-- The fields of the six opcodes: bits 7:6 count 0 to 2 operands, and bit 4 is clear. -/
theorem fields_of_mem_knownOpcodes : ∀ op ∈ knownOpcodes,
    operandCount op ≤ 2 ∧ setsPc op = false := by decide

/-- A byte with a field no opcode has is unknown. -/
theorem lookup_eq_none_of_fields {op : Byte} (h : ¬ (operandCount op ≤ 2 ∧ setsPc op = false)) : lookup op = none :=
  lookup_eq_none_iff.mpr fun hop => h (fields_of_mem_knownOpcodes op hop)

theorem decode_of_lookup_eq_none {op : Byte} (h : lookup op = none) (a b : Byte) :
    decode op a b = .error (.unknownOpcode op) := by
  simp [decode, h]

/-- Of the numbers below `n`, those not in a list of some of them. -/
theorem length_filter_range_not_mem {n : Nat} {ks : List Nat} (hks : ks.Nodup) (hlt : ∀ k ∈ ks, k < n) :
    ((List.range n).filter (fun k => !decide (k ∈ ks))).length = n - ks.length := by
  have hperm : ((List.range n).filter (fun k => decide (k ∈ ks))).Perm ks :=
    (List.perm_ext_iff_of_nodup (List.nodup_range.filter _) hks).mpr fun k => by simpa using hlt k
  have hsum := List.length_eq_length_filter_add (l := List.range n) (fun k => decide (k ∈ ks))
  rw [List.length_range, hperm.length_eq] at hsum
  exact (Nat.sub_eq_of_eq_add' hsum).symm

/-- A byte given as a number has no handler unless the number is one of the six. -/
theorem lookup_ofNat_beq_none {n : Nat} (hn : n < 256) :
    (lookup (BitVec.ofNat 8 n) == none) = !decide (n ∈ knownOpcodes.map BitVec.toNat) := by
  rw [Bool.eq_iff_iff, beq_iff_eq, lookup_eq_none_iff, Bool.not_eq_true', decide_eq_false_iff_not, List.mem_map]
  have htoNat : (BitVec.ofNat 8 n).toNat = n := Nat.mod_eq_of_lt hn
  refine not_congr ⟨fun h => ⟨_, h, htoNat⟩, ?_⟩
  rintro ⟨op, hop, rfl⟩
  rwa [BitVec.ofNat_toNat, BitVec.setWidth_eq]

/-! ## Three bytes decode to the instruction whose encoding begins them -/

/-- The encoding of an instruction that decodes is as long as its opcode says, and begins the three bytes. -/
theorem encode_of_decode {op a b : Byte} {i : Instr} (h : decode op a b = .ok i) :
    encode i <+: [op, a, b] ∧ (encode i).length = instrLength op := by
  obtain ⟨k, hk, rfl⟩ := Machine.decode_ok h
  have hrow := Machine.lookup_mem hk
  simp only [dispatchTable, List.mem_cons, Prod.mk.injEq, List.not_mem_nil, or_false] at hrow
  rcases hrow with ⟨rfl, rfl⟩ | ⟨rfl, rfl⟩ | ⟨rfl, rfl⟩ | ⟨rfl, rfl⟩ | ⟨rfl, rfl⟩ | ⟨rfl, rfl⟩ <;>
    exact ⟨by simp [Handler.instr, encode], rfl⟩

/-- Three bytes decode to the instruction whose encoding begins them. -/
theorem decode_of_encode_prefix {op a b : Byte} {i : Instr} (h : encode i <+: [op, a, b]) :
    decode op a b = .ok i := by
  cases i <;> simp only [encode, List.cons_prefix_cons, List.nil_prefix, and_true] at h
  case hlt => subst h; rfl
  case ldi => obtain ⟨rfl, rfl, rfl⟩ := h; rfl
  case prn => obtain ⟨rfl, rfl⟩ := h; rfl
  case mul => obtain ⟨rfl, rfl, rfl⟩ := h; rfl
  case psh => obtain ⟨rfl, rfl⟩ := h; rfl
  case pop => obtain ⟨rfl, rfl⟩ := h; rfl

theorem decode_eq_ok_iff {op a b : Byte} {i : Instr} : decode op a b = .ok i ↔ encode i <+: [op, a, b] :=
  ⟨fun h => (encode_of_decode h).1, decode_of_encode_prefix⟩

/-- What is decoded depends on no byte beyond the length the opcode gives. -/
theorem decode_eq_of_shared_prefix {op a b a' b' : Byte} {p : List Byte} (hp : instrLength op ≤ p.length)
    (h : p <+: [op, a, b]) (h' : p <+: [op, a', b']) : decode op a b = decode op a' b' := by
  cases hd : decode op a b with
  | ok i =>
    obtain ⟨hpre, hlen⟩ := encode_of_decode hd
    have hip : encode i <+: p := List.prefix_of_prefix_length_le hpre h (hlen ▸ hp)
    exact (decode_of_encode_prefix (hip.trans h')).symm
  | error e =>
    obtain ⟨o⟩ := e
    obtain ⟨hnone, rfl⟩ := Machine.decode_error hd
    exact (decode_of_lookup_eq_none hnone a' b').symm

/-! ## Byte strings -/

theorem encode_ne_nil (i : Instr) : encode i ≠ [] := by cases i <;> exact List.cons_ne_nil _ _

theorem encode_length_le_three (i : Instr) : (encode i).length ≤ 3 := by cases i <;> simp [encode]

/-- The candidate bytes read past the end of a string are the zeros that pad it. -/
theorem candidates_eq_take (op : Byte) (bs : List Byte) :
    [op, bs.getD 0 0, bs.getD 1 0] = (op :: bs ++ [0, 0]).take 3 := by
  rcases bs with _ | ⟨a, _ | ⟨b, bs⟩⟩ <;> rfl

/-- An encoding begins the padded candidates exactly when it begins the padded string. -/
theorem encode_prefix_candidates_iff {op : Byte} {bs : List Byte} {i : Instr} :
    encode i <+: [op, bs.getD 0 0, bs.getD 1 0] ↔ encode i <+: op :: bs ++ [0, 0] := by
  rw [candidates_eq_take, List.prefix_take_iff]
  exact and_iff_left (encode_length_le_three i)

theorem decodeBytes_cons_eq_ok_iff {op : Byte} {bs rest : List Byte} {i : Instr} :
    decodeBytes (op :: bs) = .ok (i, rest) ↔
      decode op (bs.getD 0 0) (bs.getD 1 0) = .ok i ∧ operandCount op ≤ bs.length ∧
        rest = bs.drop (operandCount op) := by
  rw [decodeBytes]
  generalize decode op (bs.getD 0 0) (bs.getD 1 0) = d
  rcases d with ⟨o⟩ | j
  · simp
  · by_cases hl : bs.length < operandCount op
    · simp [hl]
    · simp [hl, Nat.not_lt.mp hl, @eq_comm _ rest]

/-- What decodes is the encoding of what was read and then what was left, and conversely. -/
theorem decodeBytes_eq_ok_iff {bs rest : List Byte} {i : Instr} :
    decodeBytes bs = .ok (i, rest) ↔ bs = encode i ++ rest := by
  cases bs with
  | nil => simp [decodeBytes, encode_ne_nil]
  | cons op bs =>
    rw [decodeBytes_cons_eq_ok_iff, decode_eq_ok_iff, encode_prefix_candidates_iff]
    have hlength : encode i <+: op :: bs ++ [0, 0] → (encode i).length = operandCount op + 1 := fun hpre =>
      (encode_of_decode (decode_of_encode_prefix (encode_prefix_candidates_iff.mpr hpre))).2
    constructor
    · rintro ⟨hpre, hlen, rfl⟩
      have hl := hlength hpre
      have hpre' : encode i <+: op :: bs :=
        List.prefix_of_prefix_length_le hpre (List.prefix_append _ _) (by simpa [hl] using hlen)
      simpa [hl] using List.prefix_append_drop hpre'
    · intro h
      have hpre : encode i <+: op :: bs ++ [0, 0] := h ▸ (List.prefix_append _ _).trans (List.prefix_append _ _)
      have hl := hlength hpre
      have hlen := congrArg List.length h
      have hrest := congrArg (List.drop (operandCount op + 1)) h
      rw [← hl, List.drop_left, hl, List.drop_succ_cons] at hrest
      rw [List.length_append, hl, List.length_cons] at hlen
      exact ⟨hpre, by omega, hrest.symm⟩

theorem encodeProgram_append (p q : List Instr) : encodeProgram (p ++ q) = encodeProgram p ++ encodeProgram q := by
  induction p with
  | nil => rfl
  | cons i p ih => rw [List.cons_append, encodeProgram, encodeProgram, ih, List.append_assoc]

namespace Machine

/-! ## Reading memory at and after `pc` -/

/-- Additions to the program counter that stay below 512 are exact. -/
theorem pc_add_toNat {pc : Addr} {k : Nat} (h : pc.toNat + k < 512) : (pc + BitVec.ofNat 9 k).toNat = pc.toNat + k := by
  rw [BitVec.toNat_add, BitVec.toNat_ofNat]; omega

/-- With `pc` at most 253 the fetch completes with the three cells from `pc` on. -/
theorem fetch_cells (s : State) (h : s.pc.toNat ≤ 253) :
    fetch s = .ok ⟨Memory.get s.mem s.pc.toNat, Memory.get s.mem (s.pc.toNat + 1),
      Memory.get s.mem (s.pc.toNat + 2)⟩ := by
  have h1 : (s.pc + 1).toNat = s.pc.toNat + 1 := pc_add_toNat (k := 1) (by omega)
  have h2 : (s.pc + 2).toNat = s.pc.toNat + 2 := pc_add_toNat (k := 2) (by omega)
  rw [← h1, ← h2]
  exact fetch_eq s (memRead_of_le_255 s (by omega)) (memRead_of_le_255 s (by omega)) (memRead_of_le_255 s (by omega))

/-- Reading a loaded image gives the image where it lies. -/
theorem loadImage_eq_some_iff {image : List Byte} {s t : State} :
    loadImage image s = some t ↔ image.length ≤ 256 ∧ t = { s with mem := storeBytes s.mem 0 image } := by
  unfold loadImage
  split <;> simp_all [eq_comm]

theorem get_loadImage {image : List Byte} {s t : State} (hwf : Memory.wf s.mem = true)
    (h : loadImage image s = some t) (x : Nat) : Memory.get t.mem x = (image[x]?).getD (Memory.get s.mem x) := by
  obtain ⟨hlen, rfl⟩ := loadImage_eq_some_iff.mp h
  rw [get_storeBytes hwf (by simpa using hlen), if_pos (Nat.zero_le x), Nat.sub_zero]

/-! ## The obligations -/

/-- Settles O26: after the load the three cells from an instruction's address on begin with its encoding, which is
what decoding to it means. -/
theorem loadedProgramIsFetchedBack : Obligations.LoadedProgramIsFetchedBack := by
  intro p q i s t hwf hload hp
  set n := (encodeProgram p).length with hn
  have hpc : (BitVec.ofNat 9 n).toNat = n := by rw [BitVec.toNat_ofNat]; omega
  have himage : encodeProgram (p ++ i :: q) = encodeProgram p ++ (encode i ++ encodeProgram q) :=
    encodeProgram_append p (i :: q)
  have hbyte : ∀ k (hk : k < (encode i).length), Memory.get t.mem (n + k) = (encode i)[k] := fun k hk => by
    rw [get_loadImage hwf hload, himage, List.getElem?_append_right (by omega), Nat.add_sub_cancel_left,
      List.getElem?_append_left hk, List.getElem?_eq_getElem hk, Option.getD_some]
  refine ⟨_, fetch_cells _ (by rw [hpc]; exact hp), decode_of_encode_prefix ?_⟩
  simp only [hpc]
  refine List.prefix_iff_getElem?.mpr fun k hk => ?_
  rw [← hbyte k hk]
  have := encode_length_le_three i
  obtain rfl | rfl | rfl : k = 0 ∨ k = 1 ∨ k = 2 := by omega
  all_goals rfl

/-- Settles O25: the direction that reads the string off. -/
theorem decodedBytesAreTheEncoding : Obligations.DecodedBytesAreTheEncoding :=
  fun _ _ _ h => decodeBytes_eq_ok_iff.mp h

/-- Settles O24: the direction that decodes an encoding. -/
theorem decodeReadsEncodeBack : Obligations.DecodeReadsEncodeBack :=
  fun _ _ => decodeBytes_eq_ok_iff.mpr rfl

/-- Settles O19: each word begins with the encoding of its instruction. -/
theorem writtenOutWordsDecode : Obligations.WrittenOutWordsDecode := by
  refine ⟨?_, ?_, ?_, ?_, ?_, ?_⟩ <;> exact decode_of_encode_prefix (by decide)

/-- Settles O21: the six rows are evaluated, every other byte has no handler. -/
theorem dispatchTableIsTheSixRows : Obligations.DispatchTableIsTheSixRows :=
  ⟨by decide, fun _ => lookup_eq_none_iff.mpr⟩

/-- Settles O22: the six opcodes are taken from 256, and none of them has a count field of 3 or bit 4 set. -/
theorem twoHundredFiftyOpcodesAreUnknown : Obligations.TwoHundredFiftyOpcodesAreUnknown := by
  refine ⟨?_, rfl, fun op h => lookup_eq_none_of_fields (by simp [h]),
    fun op h => lookup_eq_none_of_fields (by simp [h])⟩
  rw [List.filter_congr fun n hn => lookup_ofNat_beq_none (List.mem_range.mp hn)]
  exact length_filter_range_not_mem (by decide) (by decide)

/-- Settles O23: when the bytes decode, the encoding has one byte more than the count field says, so it begins any
three bytes that share those; when they do not, the opcode alone is at fault. -/
theorem unusedCandidateOperandsAreIgnored : Obligations.UnusedCandidateOperandsAreIgnored := by
  intro op a b a' b'
  exact ⟨fun h => decode_eq_of_shared_prefix (p := [op]) (by simp [instrLength, h]) (by simp) (by simp),
    fun h => decode_eq_of_shared_prefix (p := [op, a]) (by simp [instrLength, h]) (by simp) (by simp)⟩

end Machine
end Sys2Proof
end

section
/-! SUPPORT. Proofs about the Execution Loop (spec/40_execution_cycle.md, spec/60_exceptions.md). The idea: the fetch is
decided by `pc` alone, the handler by `exec_cases`, so a step is either a legal instruction at 253 or below, with a
known length, or a raise from the state before it. -/

namespace Sys2Proof.Machine

/-! ## The fetch -/

/-- From 256 on the opcode's own address is out of range. -/
theorem fetch_of_256_le (s : State) (h : 256 ≤ s.pc.toNat) : fetch s = .error (.memOutOfRange s.pc) := by
  simp only [fetch, memRead_outside s (Nat.not_lt.mpr h)]; rfl

theorem fetch_error_at_a (s : State) {op : Byte} {c : FaultCause} (h0 : memRead s s.pc = .ok op)
    (h1 : memRead s (s.pc + 1) = .error c) : fetch s = .error c := by
  simp only [fetch, h0, h1]; rfl

theorem fetch_error_at_b (s : State) {op a : Byte} {c : FaultCause} (h0 : memRead s s.pc = .ok op)
    (h1 : memRead s (s.pc + 1) = .ok a) (h2 : memRead s (s.pc + 2) = .error c) : fetch s = .error c := by
  simp only [fetch, h0, h1, h2]; rfl

/-- At 254 the second candidate operand, at 255 the first, lies at 256. -/
theorem fetch_at_254_255 (s : State) (h : s.pc.toNat = 254 ∨ s.pc.toNat = 255) :
    fetch s = .error (.memOutOfRange 256#9) := by
  have hout : memRead s 256#9 = .error (.memOutOfRange 256#9) := memRead_outside s (by decide)
  rcases h with h | h
  · have h1 : (s.pc + 1).toNat ≤ 255 := by bv_omega
    have h2 : s.pc + 2 = 256#9 := by bv_omega
    exact fetch_error_at_b s (memRead_of_le_255 s (by omega)) (memRead_of_le_255 s h1) (h2 ▸ hout)
  · have h1 : s.pc + 1 = 256#9 := by bv_omega
    exact fetch_error_at_a s (memRead_of_le_255 s (by omega)) (h1 ▸ hout)

/-- The fetch completes exactly with `pc` at most 253; otherwise an address is out of range. -/
theorem fetch_cases (s : State) :
    (s.pc.toNat ≤ 253 ∧ ∃ f, fetch s = .ok f) ∨
    (253 < s.pc.toNat ∧ ∃ a, fetch s = .error (.memOutOfRange a)) := by
  by_cases h253 : s.pc.toNat ≤ 253
  · exact .inl ⟨h253, _, fetch_cells s h253⟩
  · refine .inr ⟨by omega, ?_⟩
    by_cases h256 : 256 ≤ s.pc.toNat
    · exact ⟨_, fetch_of_256_le s h256⟩
    · exact ⟨_, fetch_at_254_255 s (by omega)⟩

theorem pc_le_253_of_fetch {s : State} {f : Fetched} (h : fetch s = .ok f) : s.pc.toNat ≤ 253 := by
  rcases fetch_cases s with ⟨hpc, -⟩ | ⟨-, a, ha⟩
  · exact hpc
  · rw [h] at ha; cases ha

theorem fetch_error_is_memOutOfRange {s : State} {c : FaultCause} (h : fetch s = .error c) :
    ∃ a, c = .memOutOfRange a := by
  rcases fetch_cases s with ⟨-, f, hf⟩ | ⟨-, a, ha⟩
  · rw [h] at hf; cases hf
  · exact ⟨a, Except.error.inj (h.symm.trans ha)⟩

/-! ## The step of a Running unit, from what it fetches -/

theorem step_of_fetch_error {s : State} {c : FaultCause} (hs : Running s) (h : fetch s = .error c) :
    step s = raise c s := by
  rw [step_running s hs.1 hs.2, loopPass, h]

theorem step_of_fetch {s : State} {f : Fetched} (hs : Running s) (h : fetch s = .ok f) : step s = dispatch s f := by
  rw [step_running s hs.1 hs.2, loopPass, h]

theorem dispatch_of_lookup_eq_none (s : State) {f : Fetched} (h : lookup f.op = none) :
    dispatch s f = raise (.unknownOpcode f.op) s := by
  rw [dispatch, decode_of_lookup_eq_none h]

theorem dispatch_of_decode (s : State) {f : Fetched} {i : Instr} (h : decode f.op f.a f.b = .ok i) :
    dispatch s f = afterHandler f.op (exec i s) := by
  rw [dispatch, h]

theorem step_of_exec_next {s t : State} {f : Fetched} {i : Instr} (hs : Running s) (hf : fetch s = .ok f)
    (hi : decode f.op f.a f.b = .ok i) (ht : exec i s = .next t) : step s = .next (advance f.op t) := by
  rw [step_of_fetch hs hf, dispatch_of_decode s hi, ht, afterHandler]

theorem step_of_exec_fault {s : State} {g : Fault} {f : Fetched} {i : Instr} (hs : Running s) (hf : fetch s = .ok f)
    (hi : decode f.op f.a f.b = .ok i) (hg : exec i s = .fault g) : step s = .fault g := by
  rw [step_of_fetch hs hf, dispatch_of_decode s hi, hg, afterHandler]

/-! ## The advance -/

/-- No opcode sets the PC itself: after one that decodes the loop adds its length. -/
theorem advance_of_decode {op a b : Byte} {i : Instr} (h : decode op a b = .ok i) (t : State) :
    advance op t = { t with pc := t.pc + BitVec.ofNat 9 (instrLength op) } := by
  have hset : setsPc op = false := (fields_of_mem_knownOpcodes op (mem_knownOpcodes_of_decode h)).2
  simp [advance, hset]

theorem instrLength_le_three_of_decode {op a b : Byte} {i : Instr} (h : decode op a b = .ok i) :
    instrLength op ≤ 3 :=
  Nat.succ_le_succ (fields_of_mem_knownOpcodes op (mem_knownOpcodes_of_decode h)).1

/-! ## What a completed or a faulting step is -/

/-- A handler completes exactly on legal register indices. -/
theorem exec_completes_iff (i : Instr) (s : State) : (∃ t, exec i s = .next t) ↔ i.wellFormed = true := by
  rcases exec_cases s i with ⟨hwf, t, ht, -⟩ | ⟨hwf, x, hx⟩
  · exact iff_of_true ⟨t, ht⟩ hwf
  · refine iff_of_false ?_ (by rw [hwf]; exact Bool.false_ne_true)
    rintro ⟨t, ht⟩
    rw [hx] at ht; cases ht

/-- A handler that completes leaves `pc`, the flags and the fault latch, sets `halted` if it is HLT's, and keeps
memory canonical. -/
theorem exec_next_frame {i : Instr} {s t : State} (h : exec i s = .next t) :
    t.pc = s.pc ∧ t.fl = s.fl ∧ t.fault = s.fault ∧ t.halted = (if i = .hlt then true else s.halted) ∧
      (Memory.wf s.mem = true → Memory.wf t.mem = true) := by
  rcases exec_cases s i with ⟨-, u, hu, hframe⟩ | ⟨-, x, hx⟩
  · obtain rfl : u = t := Host.Outcome.next.inj (hu.symm.trans h)
    exact hframe
  · rw [hx] at h; cases h

/-- A handler that faults raises from the state before it, on a register index. -/
theorem exec_fault_is_raise {i : Instr} {s : State} {f : Fault} (h : exec i s = .fault f) :
    ∃ x, f = faultOf (.regIndexOutOfRange x) (latch (.regIndexOutOfRange x) s) := by
  rcases exec_cases s i with ⟨-, u, hu, -⟩ | ⟨-, x, hx⟩
  · rw [hu] at h; cases h
  · exact ⟨x, (Host.Outcome.fault.inj (hx.symm.trans h)).symm⟩

/-- A completed step of a Running unit: an instruction at 253 or below whose handler completed, and `pc` raised by its
length. -/
theorem step_next_running {s t : State} (hs : Running s) (h : step s = .next t) :
    ∃ f i u, fetch s = .ok f ∧ decode f.op f.a f.b = .ok i ∧ exec i s = .next u ∧
      t = { u with pc := s.pc + BitVec.ofNat 9 (instrLength f.op) } := by
  rcases step_next_cases s h with ⟨-, hh, -⟩ | ⟨-, -, f, i, u, hf, hi, hu, rfl⟩
  · rw [hs.1] at hh; cases hh
  · refine ⟨f, i, u, hf, hi, hu, ?_⟩
    rw [advance_of_decode hi, (exec_next_frame hu).1]

/-- The length of what a completed step fetched is what it adds to `pc`, without wrap. -/
theorem step_next_pc {s t : State} {op : Byte} (hs : Running s) (hop : memRead s s.pc = .ok op)
    (h : step s = .next t) :
    s.pc.toNat ≤ 253 ∧ op ∈ knownOpcodes ∧ instrLength op ≤ 3 ∧
      t.pc.toNat = s.pc.toNat + instrLength op := by
  obtain ⟨f, i, u, hf, hi, -, rfl⟩ := step_next_running hs h
  obtain rfl : f.op = op := Except.ok.inj ((fetch_ok s hf).1.symm.trans hop)
  have hpc := pc_le_253_of_fetch hf
  have hlen := instrLength_le_three_of_decode hi
  exact ⟨hpc, mem_knownOpcodes_of_decode hi, hlen, pc_add_toNat (by omega)⟩

/-- A faulting step of a unit not yet Faulted raises from the state before it, while Running and never with the ALU's
own cause. -/
theorem step_fault_is_raise {s : State} {f : Fault} (hf : s.fault = none) (h : step s = .fault f) :
    s.halted = false ∧ ∃ c, c ≠ .unsupportedAluOperation ∧ f = faultOf c (latch c s) := by
  obtain ⟨hh, hcases⟩ := step_fault_cases s hf h
  refine ⟨hh, ?_⟩
  rcases hcases with ⟨c, hc, rfl⟩ | ⟨g, -, -, rfl⟩ | ⟨g, i, -, -, hx⟩
  · obtain ⟨a, rfl⟩ := fetch_error_is_memOutOfRange hc
    exact ⟨_, by simp, rfl⟩
  · exact ⟨_, by simp, rfl⟩
  · obtain ⟨x, rfl⟩ := exec_fault_is_raise hx
    exact ⟨_, by simp, rfl⟩

/-- Every step answers a next state or a fault. -/
theorem step_total (s : State) : (∃ t, step s = .next t) ∨ ∃ f, step s = .fault f := by
  cases hf : s.fault with
  | some c => exact .inr ⟨_, step_faulted s hf⟩
  | none =>
    cases hh : s.halted with
    | true => exact .inl ⟨_, step_halted s hh hf⟩
    | false =>
      have hs : Running s := ⟨hh, hf⟩
      rcases fetch_cases s with ⟨-, f, hfetch⟩ | ⟨-, a, ha⟩
      · cases hd : decode f.op f.a f.b with
        | error e =>
          obtain ⟨o⟩ := e
          exact .inr ⟨_, (step_of_fetch hs hfetch).trans (dispatch_of_lookup_eq_none s (decode_error hd).1)⟩
        | ok i =>
          rcases exec_cases s i with ⟨-, t, ht, -⟩ | ⟨-, x, hx⟩
          · exact .inl ⟨_, step_of_exec_next hs hfetch hd ht⟩
          · exact .inr ⟨_, step_of_exec_fault hs hfetch hd hx⟩
      · exact .inr ⟨_, step_of_fetch_error hs ha⟩

/-- While Running a completed step either leaves the unit Running with `pc` two or three higher, or ends the run
well. -/
theorem step_next_running_or_endedWell {s t : State} (hs : Running s) (h : step s = .next t) :
    (Running t ∧ s.pc.toNat + 2 ≤ t.pc.toNat) ∨ EndedWell t := by
  obtain ⟨f, i, u, hf, hi, hu, ht⟩ := step_next_running hs h
  obtain ⟨-, -, hfault, hhalted, -⟩ := exec_next_frame hu
  have htfault : t.fault = none := by rw [ht, ← hs.2, ← hfault]
  cases hth : t.halted with
  | true => exact .inr ⟨hth, htfault⟩
  | false =>
    have hop := (fetch_ok s hf).1
    obtain ⟨-, hmem, -, hpc⟩ := step_next_pc hs hop h
    have hne : f.op ≠ 0x01#8 := fun e => by
      rw [e, ← step_halts_iff hs h, hth] at hop; cases hop
    have hlen : ∀ op ∈ knownOpcodes, op ≠ 0x01#8 → 2 ≤ instrLength op := by
      decide
    exact .inl ⟨⟨hth, htfault⟩, hpc ▸ Nat.add_le_add_left (hlen _ hmem hne) _⟩

/-! ## The invariant -/

/-- A fault taken while Running keeps the invariant: only the latch changes. -/
theorem LegalState.latch {s : State} (hs : LegalState s) (hh : s.halted = false) (c : FaultCause) :
    LegalState (latch c s) :=
  ⟨hs.memory, hs.pcRange, hs.flags, .inl hh⟩

/-- An executed instruction keeps the invariant. -/
theorem LegalState.step_next {s t : State} (hs : LegalState s) (hrun : Running s) (h : step s = .next t) :
    LegalState t := by
  obtain ⟨f, i, u, hf, hi, hu, ht⟩ := step_next_running hrun h
  obtain ⟨hpc253, -, hlen, hpc⟩ := step_next_pc hrun (fetch_ok s hf).1 h
  obtain ⟨-, hfl, hfault, -, hmem⟩ := exec_next_frame hu
  subst ht
  exact ⟨hmem hs.memory, hpc ▸ Nat.add_le_add hpc253 hlen, hfl.trans hs.flags, .inr (hfault.trans hrun.2)⟩

/-! ## Runs -/

theorem runSteps_succ_of_next {s t : State} (h : step s = .next t) (n : Nat) : runSteps (n + 1) s = runSteps n t := by
  rw [runSteps_succ, h]

theorem runSteps_succ_of_fault {s : State} {f : Fault} (h : step s = .fault f) (n : Nat) :
    runSteps (n + 1) s = .fault f := by
  rw [runSteps_succ, h]

/-- Each step of a run but the last raises `pc` by at least two, and none completes past 253. -/
theorem runSteps_ends : ∀ (n : Nat) {s : State}, Running s → 254 ≤ s.pc.toNat + 2 * n →
    (∃ t, runSteps (n + 1) s = .next t ∧ EndedWell t) ∨ ∃ f, runSteps (n + 1) s = .fault f
  | n, s, hs, hn => by
    rcases step_total s with ⟨t, ht⟩ | ⟨f, hf⟩
    · rw [runSteps_succ_of_next ht]
      rcases step_next_running_or_endedWell hs ht with ⟨hrun, hpc⟩ | hend
      · cases n with
        | zero =>
          obtain ⟨g, -, -, hg, -⟩ := step_next_running hs ht
          have := pc_le_253_of_fetch hg
          omega
        | succ n => exact runSteps_ends n hrun (by omega)
      · exact .inl ⟨t, runSteps_endedWell n hend, hend⟩
    · exact .inr ⟨f, runSteps_succ_of_fault hf n⟩

/-! ## The obligations -/

/-- Settles O44: an executed instruction and a raise keep the invariant; a stopped unit's state is unchanged. -/
theorem legalStateIsKept : Obligations.LegalStateIsKept := by
  refine fun s hs => ⟨fun t ht => ?_, fun f hf => ?_⟩
  · rcases step_next_cases s ht with ⟨-, -, rfl⟩ | ⟨hfault, hh, -⟩
    · exact hs
    · exact hs.step_next ⟨hh, hfault⟩ ht
  · cases hfault : s.fault with
    | some c =>
      rw [step_faulted s hfault, Host.Outcome.fault.injEq] at hf
      rw [← hf, faultOf_faulted]
      exact hs
    | none =>
      obtain ⟨hh, c, -, rfl⟩ := step_fault_is_raise hfault hf
      rw [faultOf_faulted]
      exact hs.latch hh c

/-- Settles O11: the ALU rejects the name; a step raises another cause. -/
theorem unsupportedAluOperationIsUnreachable : Obligations.UnsupportedAluOperationIsUnreachable := by
  refine ⟨fun _ _ _ _ => rfl, fun s f hf h => ?_⟩
  obtain ⟨-, c, hc, rfl⟩ := step_fault_is_raise hf h
  rwa [faultOf_cause]

/-- Settles O16: the ALU's values, its frame, the two steps of the stack pointer in 8 bits, and `pc` at most 253 after
a fetch. -/
theorem arithmeticIsExactThenReduced : Obligations.ArithmeticIsExactThenReduced := by
  refine ⟨fun x y => ⟨aluAdd_toNat x y, aluMul_toNat x y⟩, fun o ho a b s ha hb => ?_, fun s => ?_, fun s f hf => ?_⟩
  · have ha := lt_nregs_of_le_seven ha
    have hb := lt_nregs_of_le_seven hb
    simp only [List.mem_cons, List.not_mem_nil, or_false] at ho
    rcases ho with rfl | rfl
    · obtain ⟨t, -, -, ht, -, -, -, hframe⟩ := aluBinary_completes aluAdd s ha hb
      exact ⟨t, ht, hframe⟩
    · obtain ⟨t, -, -, ht, -, -, -, hframe⟩ := aluBinary_completes aluMul s ha hb
      exact ⟨t, ht, hframe⟩
  · refine ⟨_, _, _, _, _, registerGet_sp s, spDecrement_eq s, spIncrement_eq s,
      registerGet_sp_of_regs_set (s := s) rfl, registerGet_sp_of_regs_set (s := s) rfl,
      intCast_toNat_sub_ofNat s.regs[7] 1, ?_⟩
    rw [BitVec.toNat_add]
    rfl
  · have hpc := pc_le_253_of_fetch hf
    refine ⟨pc_add_toNat (k := 1) (by omega), pc_add_toNat (k := 2) (by omega), fun hset => ?_⟩
    have hlen : instrLength f.op ≤ 4 := by
      have := (f.op.extractLsb' 6 2).isLt
      simp only [instrLength, operandCount]
      omega
    rw [advance_pc, if_neg (by simp [hset]), pc_add_toNat (by omega)]

/-- Settles O27: the step from what it fetched; a handler is never refused. -/
theorem stepRunsDecodedInstruction : Obligations.StepRunsDecodedInstruction := by
  rintro s op a b i hs ⟨h0, h1, h2⟩ hi
  have hf := fetch_eq s h0 h1 h2
  refine ⟨fun t ht => ?_, fun f hx => step_of_exec_fault hs hf hi hx, fun q hq => ?_⟩
  · rw [step_of_exec_next hs hf hi ht, advance]
    split <;> rfl
  · rcases exec_cases s i with ⟨-, t, ht, -⟩ | ⟨-, x, hx⟩
    · rw [hq] at ht; cases ht
    · rw [hq] at hx; cases hx

/-- Settles O28: a byte without a handler is raised by the dispatch, a byte with one runs it. -/
theorem unknownOpcodeIsFatal : Obligations.UnknownOpcodeIsFatal := by
  rintro s op a b hs ⟨h0, h1, h2⟩
  have hf := fetch_eq s h0 h1 h2
  refine ⟨fun hop => ?_, fun hop => ?_⟩
  · refine ⟨_, (step_of_fetch hs hf).trans (dispatch_of_lookup_eq_none s (lookup_eq_none_iff.mpr hop)),
      rfl, rfl, rfl, ⟨_, rfl, Nat.succ_ne_zero _⟩, fun t ht => ?_⟩
    rw [faultOf_faulted, step_faulted _ (latch_fault s _)] at ht
    cases ht
  · obtain ⟨k, hk⟩ := Option.ne_none_iff_exists'.mp fun hnone => lookup_eq_none_iff.mp hnone hop
    exact ⟨k, hk, (step_of_fetch hs hf).trans (dispatch_of_decode s (by simp [decode, hk]))⟩

/-- Settles O29: the fetch fails, and the step raises its cause. -/
theorem fetchPastMemoryFaults : Obligations.FetchPastMemoryFaults := fun s hs =>
  ⟨fun h => step_of_fetch_error hs (fetch_of_256_le s h),
    fun h => step_of_fetch_error hs (fetch_at_254_255 s h)⟩

/-- Settles O30: of the fetch, the decoding and the handler, each completes on its own condition. -/
theorem stepCompletesExactlyOnLegalInstructions : Obligations.StepCompletesExactlyOnLegalInstructions := by
  refine fun s hs => ⟨?_, ?_⟩
  · rintro ⟨t, ht⟩
    obtain ⟨f, i, u, hf, hi, hu, -⟩ := step_next_running hs ht
    exact ⟨pc_le_253_of_fetch hf, f.op, f.a, f.b, i, fetch_ok s hf, hi, (exec_completes_iff i s).mp ⟨u, hu⟩⟩
  · rintro ⟨-, op, a, b, i, ⟨h0, h1, h2⟩, hi, hwf⟩
    obtain ⟨u, hu⟩ := (exec_completes_iff i s).mpr hwf
    exact ⟨_, step_of_exec_next hs (fetch_eq s h0 h1 h2) hi hu⟩

/-- Settles O31: every fault is raised from the state before the step. -/
theorem faultsArePrecise : Obligations.FaultsArePrecise := by
  intro s f hf h
  obtain ⟨-, c, -, rfl⟩ := step_fault_is_raise hf h
  rw [faultOf_faulted, faultOf_cause, latch]

/-- Settles O32: the length added is 1, 2 or 3, and only HLT ends the run. -/
theorem executionAscendsByOneTwoOrThree : Obligations.ExecutionAscendsByOneTwoOrThree := by
  refine ⟨rfl, fun s t hs h => ?_, fun s t hs h hstop => ?_⟩
  · obtain ⟨f, -, -, hf, -⟩ := step_next_running hs h
    obtain ⟨-, -, hlen, hpc⟩ := step_next_pc hs (fetch_ok s hf).1 h
    have hpos : 1 ≤ instrLength f.op := Nat.succ_pos _
    omega
  · rcases step_next_running_or_endedWell hs h with ⟨hrun, -⟩ | ⟨hh, -⟩
    · exact absurd hrun hstop
    · exact (step_halts_iff hs h).mp hh

/-- Settles O33: the length added is the opcode's, from `pc` at most 253. -/
theorem stepAddsInstructionLength : Obligations.StepAddsInstructionLength := by
  intro s t op hs hop h
  obtain ⟨hpc253, -, hlen, hpc⟩ := step_next_pc hs hop h
  have two : ∀ op ∈ [0x47#8, 0x45#8, 0x46#8], instrLength op = 2 := by decide
  have three : ∀ op ∈ [0x82#8, 0xA2#8], instrLength op = 3 := by decide
  exact ⟨hpc, by omega, fun e => e ▸ rfl, two op, three op⟩

/-- Settles O35: `halted` is set by HLT alone, whose handler and length are known. -/
theorem runEndsWellExactlyOnHlt : Obligations.RunEndsWellExactlyOnHlt := by
  refine fun s hs => ⟨⟨?_, ?_⟩, fun t h hend => ?_⟩
  · rintro ⟨t, h, hh, -⟩
    have hop := (step_halts_iff hs h).mp hh
    exact ⟨hop, (step_next_pc hs hop h).1⟩
  · rintro ⟨hop, hpc⟩
    obtain ⟨f, hf⟩ : ∃ f, fetch s = .ok f := ⟨_, fetch_cells s hpc⟩
    have hfop : f.op = 0x01#8 := Except.ok.inj ((fetch_ok s hf).1.symm.trans hop)
    have hi : decode f.op f.a f.b = .ok .hlt := by rw [hfop]; rfl
    have hstep := step_of_exec_next hs hf hi (execHlt_eq s)
    exact ⟨_, hstep, (step_halts_iff hs hstep).mpr hop, (advance_fault _ _).trans hs.2⟩
  · have hop := (step_halts_iff hs h).mp hend.1
    obtain ⟨f, i, u, hf, hi, hu, rfl⟩ := step_next_running hs h
    have hfop : f.op = 0x01#8 := Except.ok.inj ((fetch_ok s hf).1.symm.trans hop)
    obtain rfl := (decode_hlt_iff hi).mpr hfop
    obtain rfl := Host.Outcome.next.inj ((execHlt_eq s).symm.trans hu)
    rw [hfop]
    rfl

/-- Settles O36: a stopped unit's step. -/
theorem stoppedUnitChangesNothing : Obligations.StoppedUnitChangesNothing :=
  ⟨fun s h => step_halted s h.1 h.2, fun s c hf =>
    ⟨_, step_faulted s hf, faultOf_cause s c, faultOf_faulted s c⟩⟩

/-- Settles O37: every step answers a next state or a fault. -/
theorem noStepIsRefused : Obligations.NoStepIsRefused := by
  intro s q hq
  rcases step_total s with ⟨t, ht⟩ | ⟨f, hf⟩
  · rw [hq] at ht; cases ht
  · rw [hq] at hf; cases hf

/-- Settles O49: 127 steps that each raise `pc` by two leave no room for a further one. -/
theorem everyRunEndsWithin128Steps : Obligations.EveryRunEndsWithin128Steps :=
  fun _ hs => runSteps_ends 127 hs (Nat.le_add_left 254 _)

end Sys2Proof.Machine
end

section
/-! SUPPORT. Proofs about what a step can change, over all instructions (spec/10_state.md R10, R15, R19, R22;
spec/20_memory.md R37, R44). The idea: the six frames are gathered once in `exec_changes`, and a step adds nothing to
its handler but the advance; that neither FL nor `out` is read is the replay of the handler with both replaced. -/

namespace Sys2Proof.Machine

/-! ## Neither FL nor `out` is read -/

/-- The state with other flags and another output so far. -/
def State.reframed (s : State) (v : Byte) (o : List Byte) : State := { s with fl := v, out := o }

theorem fetch_congr {s s' : State} (hmem : s'.mem = s.mem) (hpc : s'.pc = s.pc) : fetch s' = fetch s := by
  simp only [fetch, memRead_congr hmem, hpc]

/-- A step that completes does the same with any other flags and any other output so far: it leaves the flags and
appends the same values, at most one. -/
theorem step_next_reframed {s t : State} (h : step s = .next t) :
    ∃ e, e.length ≤ 1 ∧ t.fl = s.fl ∧ t.out = s.out ++ e ∧
      ∀ v o, step (s.reframed v o) = .next (t.reframed v (o ++ e)) := by
  rcases step_next_cases s h with ⟨hf, hh, rfl⟩ | ⟨hf, hh, f, i, u, hfetch, hi, hu, rfl⟩
  · refine ⟨[], by simp, rfl, by simp, fun v o => ?_⟩
    rw [List.append_nil]
    exact step_halted _ hh hf
  · obtain ⟨m, r, e, he, rfl, hx⟩ := exec_next_replays hu
    refine ⟨e, he, advance_fl _ _, advance_out _ _, fun v o => ?_⟩
    have hrun : Running (s.reframed v o) := ⟨hh, hf⟩
    have hfetch' : fetch (s.reframed v o) = .ok f := (fetch_congr rfl rfl).trans hfetch
    rw [step_of_exec_next hrun hfetch' hi (hx _ rfl rfl), advance_of_decode hi, advance_of_decode hi]
    rfl

/-- A step that faults faults with the same cause with any other flags and any other output. -/
theorem step_fault_reframed {s : State} {f : Fault} (h : step s = .fault f) (v : Byte) (o : List Byte) :
    ∃ g, step (s.reframed v o) = .fault g ∧ g.cause = f.cause := by
  cases hf : s.fault with
  | some c =>
    obtain rfl := Host.Outcome.fault.inj ((step_faulted s hf).symm.trans h)
    exact ⟨_, step_faulted _ hf, by rw [faultOf_cause, faultOf_cause]⟩
  | none =>
    obtain ⟨hh, hcases⟩ := step_fault_cases s hf h
    have hrun : Running (s.reframed v o) := ⟨hh, hf⟩
    have hfetch : fetch (s.reframed v o) = fetch s := fetch_congr rfl rfl
    rcases hcases with ⟨c, hc, rfl⟩ | ⟨g, hg, hnone, rfl⟩ | ⟨g, i, hg, hi, hx⟩
    · exact ⟨_, step_of_fetch_error hrun (hfetch.trans hc), by rw [faultOf_cause, faultOf_cause]⟩
    · exact ⟨_, (step_of_fetch hrun (hfetch.trans hg)).trans (dispatch_of_lookup_eq_none _ hnone), rfl⟩
    · obtain ⟨g', hg', hcause⟩ := exec_fault_replays hx (s.reframed v o)
      exact ⟨g', step_of_exec_fault hrun (hfetch.trans hg) hi hg', hcause⟩

/-! ## What each instruction writes -/

/-- The registers an instruction writes (R15). -/
def writtenRegisters : Instr → List Byte
  | .hlt => []
  | .ldi a _ => [a]
  | .prn _ => []
  | .mul a _ => [a]
  | .psh _ => [7#8]
  | .pop a => [7#8, a]

/-- Everything a handler that completes can change: the registers tabled, memory if it is a PSH, and the output if it
is a PRN, by the value of its register. -/
theorem exec_changes {i : Instr} {s t : State} (h : exec i s = .next t) :
    RegistersKeptBut (writtenRegisters i) s t ∧ ((∀ a, i ≠ .psh a) → MemoryKeptBut [] s t) ∧
      (t.out = s.out ∨ ∃ a v, i = .prn a ∧ registerGet s a = .ok v ∧ t.out = s.out ++ [v]) := by
  have hwf := (exec_completes_iff i s).mp ⟨t, h⟩
  cases i with
  | hlt =>
    obtain ⟨t', ht, -, hregs, hmem, -, -, -, hout⟩ := hltCompletesAndOnlyHalts s
    obtain rfl := Host.Outcome.next.inj (ht.symm.trans h)
    exact ⟨hregs, fun _ => hmem, .inl hout⟩
  | ldi a b =>
    obtain ⟨t', ht, -, hregs, hmem, -, hout⟩ := ldiWritesImmediate a b s (Nat.le_of_lt_succ (of_decide_eq_true hwf))
    obtain rfl := Host.Outcome.next.inj (ht.symm.trans h)
    exact ⟨hregs, fun _ => hmem, .inl hout⟩
  | prn a =>
    obtain ⟨t', v, ht, hv, hout, hregs, hmem, -⟩ := prnEmitsRegister a s (Nat.le_of_lt_succ (of_decide_eq_true hwf))
    obtain rfl := Host.Outcome.next.inj (ht.symm.trans h)
    exact ⟨hregs, fun _ => hmem, .inr ⟨a, v, rfl, hv, hout⟩⟩
  | mul a b =>
    obtain ⟨ha, hb⟩ := Bool.and_eq_true_iff.mp hwf
    obtain ⟨t', -, -, ht, -, -, -, hregs, hmem, -, hout⟩ :=
      exec_mul_completes s (of_decide_eq_true ha) (of_decide_eq_true hb)
    obtain rfl := Host.Outcome.next.inj (ht.symm.trans h)
    exact ⟨hregs, fun _ => hmem, .inl hout⟩
  | psh a =>
    obtain ⟨t', ht, -, hregs, -, hout⟩ := exec_psh_registers s (of_decide_eq_true hwf)
    obtain rfl := Host.Outcome.next.inj (ht.symm.trans h)
    exact ⟨hregs, fun hne => absurd rfl (hne a), .inl hout⟩
  | pop a =>
    obtain ⟨hregs, hmem, -, hout⟩ := exec_pop_frame (of_decide_eq_true hwf) h
    exact ⟨hregs, fun _ => memoryKeptBut_of_mem_eq hmem [], .inl hout⟩

/-- What a completed step changes its handler changed: on either side of the advance, registers, memory and output are
the same. -/
theorem step_change_is_exec_change {s t : State} (h : step s = .next t) :
    t = s ∨ ∃ (f : Fetched) (i : Instr) (u : State), memRead s s.pc = .ok f.op ∧ memRead s (s.pc + 1) = .ok f.a ∧
      decode f.op f.a f.b = .ok i ∧ exec i s = .next u ∧ t.regs = u.regs ∧ t.mem = u.mem ∧ t.out = u.out := by
  rcases step_next_cases s h with ⟨-, -, rfl⟩ | ⟨-, -, f, i, u, hf, hi, hu, rfl⟩
  · exact .inl rfl
  · obtain ⟨h0, h1, -⟩ := fetch_ok s hf
    exact .inr ⟨f, i, u, h0, h1, hi, hu, advance_regs _ _, advance_mem _ _, advance_out _ _⟩

/-- The table of R15 by opcode byte. -/
theorem writtenRegisters_of_decode {op a b r : Byte} {i : Instr} (h : decode op a b = .ok i)
    (hr : r ∈ writtenRegisters i) :
    (op = 0x82#8 ∧ r = a) ∨ (op = 0xA2#8 ∧ r = a) ∨ (op = 0x45#8 ∧ r = 7#8) ∨
      (op = 0x46#8 ∧ (r = 7#8 ∨ r = a)) := by
  have hpre := (encode_of_decode h).1
  cases i <;>
    simp only [encode, writtenRegisters, List.cons_prefix_cons, List.mem_cons, List.not_mem_nil, or_false] at hpre hr
  case ldi => obtain ⟨rfl, rfl, -⟩ := hpre; exact .inl ⟨rfl, hr⟩
  case mul => obtain ⟨rfl, rfl, -⟩ := hpre; exact .inr (.inl ⟨rfl, hr⟩)
  case psh => obtain ⟨rfl, rfl, -⟩ := hpre; exact .inr (.inr (.inl ⟨rfl, hr⟩))
  case pop => obtain ⟨rfl, rfl, -⟩ := hpre; exact .inr (.inr (.inr ⟨rfl, hr⟩))

/-! ## One step of LDI and of PRN -/

/-- The step, from the three bytes at `pc` and what the handler leaves. -/
theorem step_executes {s t : State} {op a b : Byte} {i : Instr} (hs : Running s) (hbytes : BytesAt s op a b)
    (hi : decode op a b = .ok i) (ht : exec i s = .next t) :
    step s = .next { t with pc := s.pc + BitVec.ofNat 9 (instrLength op) } := by
  obtain ⟨h0, h1, h2⟩ := hbytes
  obtain ⟨hpc, -⟩ := exec_next_frame ht
  rw [step_of_exec_next hs (fetch_eq s h0 h1 h2) hi ht, advance_of_decode hi, hpc]

theorem step_ldi {s : State} {r v : Byte} (hs : Running s) (hr : r.toNat ≤ 7) (hbytes : BytesAt s 0x82#8 r v) :
    ∃ t : State, step s = .next t ∧ Running t ∧ t.pc = s.pc + 3 ∧ registerGet t r = .ok v ∧
      RegistersKeptBut [r] s t ∧ MemoryKeptBut [] s t ∧ t.out = s.out := by
  obtain ⟨u, hu, hv, hregs, hmem, ⟨-, hh, hf, -⟩, hout⟩ := ldiWritesImmediate r v s hr
  exact ⟨_, step_executes hs hbytes rfl hu, ⟨hh.trans hs.1, hf.trans hs.2⟩, rfl, hv, hregs, hmem, hout⟩

theorem step_prn {s : State} {r b : Byte} (hs : Running s) (hr : r.toNat ≤ 7) (hbytes : BytesAt s 0x47#8 r b) :
    ∃ (t : State) (v : Byte), step s = .next t ∧ Running t ∧ t.pc = s.pc + 2 ∧ registerGet s r = .ok v ∧
      t.out = s.out ++ [v] ∧ RegistersKeptBut [] s t ∧ MemoryKeptBut [] s t := by
  obtain ⟨u, v, hu, hv, hout, hregs, hmem, -, hh, hf, -⟩ := prnEmitsRegister r s hr
  exact ⟨_, v, step_executes hs hbytes rfl hu, ⟨hh.trans hs.1, hf.trans hs.2⟩, rfl, hv, hout, hregs, hmem⟩

/-! ## Memory after a push -/

/-- A completed push on canonical memory, whole: SP - 1 in r7, and memory as before but for the byte there, which is
what the register holds. -/
theorem exec_psh_memory {s t : State} {a : Byte} (hwf : Memory.wf s.mem = true) (h : exec (.psh a) s = .next t) :
    ∃ v, registerGet t a = .ok v ∧ registerGet t 7#8 = .ok (s.regs[7] - 1) ∧
      memRead t (zext9 (s.regs[7] - 1)) = .ok v ∧ MemoryKeptBut [zext9 (s.regs[7] - 1)] s t := by
  have ha : a.toNat < Config.nregs := of_decide_eq_true ((exec_completes_iff _ s).mp ⟨t, h⟩)
  obtain ⟨t', v, ht, -, hsp, hv, hm⟩ := exec_psh_completes hwf (registerGet_sp s) ha
  obtain rfl := Host.Outcome.next.inj (ht.symm.trans h)
  exact ⟨v, hv, hsp, hm, exec_psh_memory_kept hwf ha ht⟩

/-! ## The obligations -/

/-- Settles O38: the step replayed with other flags and the same output. -/
theorem flagsAreNeitherWrittenNorRead : Obligations.FlagsAreNeitherWrittenNorRead := by
  refine ⟨fun s t h => ?_, fun s t v h => ?_, fun s f v h => step_fault_reframed h v s.out⟩
  · obtain ⟨-, -, hfl, -⟩ := step_next_reframed h
    exact hfl
  · obtain ⟨e, -, -, hout, hreframed⟩ := step_next_reframed h
    have hv : step (s.reframed v s.out) = .next (t.reframed v t.out) := hout ▸ hreframed v s.out
    exact hv

/-- Settles O39: the step replayed with another output and the same flags. -/
theorem outputIsAppendOnlyAndNotRead : Obligations.OutputIsAppendOnlyAndNotRead := by
  intro s t h
  obtain ⟨e, he, hfl, hout, hreframed⟩ := step_next_reframed h
  refine ⟨e, hout, he, fun o => ?_⟩
  have ho : step (s.reframed s.fl o) = .next (t.reframed t.fl (o ++ e)) := hfl ▸ hreframed s.fl o
  exact ho

/-- Settles O40: of the handlers only PRN's changes the output. -/
theorem onlyPrnEmits : Obligations.OnlyPrnEmits := by
  intro s t h hne
  rcases step_change_is_exec_change h with rfl | ⟨f, i, u, h0, h1, hi, hu, -, -, hout⟩
  · exact absurd rfl hne
  · obtain ⟨-, -, hkept | ⟨a, v, rfl, hv, hemit⟩⟩ := exec_changes hu
    · exact absurd (hout.trans hkept) hne
    · obtain ⟨hop, ha⟩ : 0x47#8 = f.op ∧ a = f.a := by simpa [encode] using (encode_of_decode hi).1
      exact ⟨a, v, hop ▸ h0, ha ▸ h1, hv, hout.trans hemit⟩

/-- Settles O41: of the handlers only PSH's changes memory, and that at its new stack pointer. -/
theorem onlyPshWritesMemory : Obligations.OnlyPshWritesMemory := by
  intro s t x hwf h hne
  rcases step_change_is_exec_change h with rfl | ⟨f, i, u, h0, -, hi, hu, hregs, hmem, -⟩
  · exact absurd rfl hne
  · rw [memRead_congr hmem] at hne
    obtain ⟨a, rfl⟩ : ∃ a, i = .psh a := by
      by_contra hpsh
      exact hne ((exec_changes hu).2.1 (not_exists.mp hpsh) x List.not_mem_nil)
    obtain ⟨hop, -⟩ : 0x45#8 = f.op ∧ a = f.a := by simpa [encode] using (encode_of_decode hi).1
    obtain ⟨v, -, hsp, -, hkept⟩ := exec_psh_memory hwf hu
    have hx : x = zext9 (s.regs[7] - 1) := by
      by_contra hx
      exact hne (hkept x (by simpa using hx))
    refine ⟨hop ▸ h0, ?_⟩
    rw [stackAddress_eq, hx, registerGet_sp_ok_iff.mp ((registerGet_congr hregs _).trans hsp)]

/-- Settles O42: the table of the registers written, by opcode. -/
theorem registersAreWrittenAsTabled : Obligations.RegistersAreWrittenAsTabled := by
  intro s t r h hne
  rcases step_change_is_exec_change h with rfl | ⟨f, i, u, h0, h1, hi, hu, hregs, -, -⟩
  · exact absurd rfl hne
  · rw [registerGet_congr hregs] at hne
    have hr : r ∈ writtenRegisters i := by
      by_contra hr
      exact hne ((exec_changes hu).1 r hr)
    exact ⟨f.op, f.a, h0, h1, writtenRegisters_of_decode hi hr⟩

/-- Settles O43: the fetch reads the three bytes through the memory the push left. -/
theorem storeIsSeenByTheNextFetch : Obligations.StoreIsSeenByTheNextFetch := by
  intro a s t p hwf h hp
  obtain ⟨v, hv, hsp, hm, hkept⟩ := exec_psh_memory hwf h
  obtain ⟨f, hf⟩ : ∃ f, fetch { s with pc := p } = .ok f := ⟨_, fetch_cells _ hp⟩
  obtain ⟨g, hg⟩ : ∃ g, fetch { t with pc := p } = .ok g := ⟨_, fetch_cells _ hp⟩
  have hbyte : ∀ x m n, memRead s x = .ok m → memRead t x = .ok n →
      n = if x = zext9 (s.regs[7] - 1) then v else m := by
    intro x m n hs ht
    split
    · next hx => exact Except.ok.inj (ht.symm.trans (hx ▸ hm))
    · next hx => exact Except.ok.inj (ht.symm.trans ((hkept x (by simpa using hx)).trans hs))
  obtain ⟨f0, f1, f2⟩ := fetch_ok _ hf
  obtain ⟨g0, g1, g2⟩ := fetch_ok _ hg
  exact ⟨f, g, v, _, hf, hg, hv, hsp, hbyte _ _ _ f0 g0, hbyte _ _ _ f1 g1, hbyte _ _ _ f2 g2⟩

/-- Settles O50: LDI's step, then PRN's on the state it leaves. -/
theorem ldiThenPrnOutputsTheValue : Obligations.LdiThenPrnOutputsTheValue := by
  intro s r v hs hpc hr hbytes h3 h4
  obtain ⟨t, ht, hrun, htpc, htr, htregs, htmem, htout⟩ := step_ldi hs hr hbytes
  have hread : ∀ x, memRead t x = memRead s x := fun x => htmem x List.not_mem_nil
  have hpc4 : s.pc + 3 + 1 = s.pc + 4 := by bv_omega
  have hpc5 : (s.pc + 3 + 2).toNat ≤ 255 := by bv_omega
  obtain ⟨b, hbytes'⟩ : ∃ b, BytesAt t 0x47#8 r b := by
    refine ⟨_, ?_, ?_, memRead_of_le_255 t (htpc ▸ hpc5)⟩
    · rw [hread, htpc, h3]
    · rw [hread, htpc, hpc4, h4]
  obtain ⟨u, w, hu, hrun', hupc, hw, huout, huregs, humem⟩ := step_prn hrun hr hbytes'
  obtain rfl : v = w := Except.ok.inj (htr.symm.trans hw)
  refine ⟨u, ?_, ?_, ?_, ?_, fun x hx => ?_, fun x hx => ?_, hrun'⟩
  · rw [runSteps_succ_of_next ht, runSteps_succ_of_next hu, runSteps_zero]
  · rw [huout, htout]
  · rw [huregs r List.not_mem_nil, htr]
  · rw [hupc, htpc]; bv_omega
  · rw [huregs x List.not_mem_nil, htregs x hx]
  · rw [humem x hx, hread x]

end Sys2Proof.Machine
end

section
/-! SUPPORT. Proof about pushes and pops in a row (spec/44_stack_psh_pop.md R122). The idea: the first push and the last
pop enclose the rest. Between them the stack pointer is one lower and comes back, and the byte at the outer stack
pointer is kept, because fewer than 256 cells below it are stored to; so the last pop reads what the first push
stored. -/

namespace Sys2Proof.Machine

/-! ## The cells below a stack pointer -/

/-- Where the push number `k` of a row from SP = `sp` stores, the pushes counted from 0. -/
def pushAddress (sp : Byte) (k : Nat) : Addr := zext9 (sp - 1 - BitVec.ofNat 8 k)

theorem pushAddress_succ (sp : Byte) (k : Nat) : pushAddress sp (k + 1) = pushAddress (sp - 1) k := by
  unfold pushAddress
  congr 1
  rw [BitVec.ofNat_add]
  bv_omega

theorem pushAddress_255 (sp : Byte) : pushAddress sp 255 = zext9 sp := by
  unfold pushAddress
  congr 1
  bv_omega

theorem pushAddress_ne {sp : Byte} {k : Nat} (h0 : 0 < k) (h : k < 256) : pushAddress sp k ≠ zext9 (sp - 1) := by
  intro e
  have he := congrArg BitVec.toNat (zext9_injective e)
  have hk : (BitVec.ofNat 8 k).toNat = k := by rw [BitVec.toNat_ofNat]; omega
  bv_omega

/-! ## The row of pushes and pops -/

theorem ne_sp_of_lt_seven {r : Byte} (h : r.toNat < 7) : r ≠ 7#8 := fun e => absurd h (e ▸ lt_irrefl 7)

theorem sp_not_mem_of_lt_seven {ds : List Byte} (h : ∀ d ∈ ds, d.toNat < 7) : 7#8 ∉ ds :=
  fun h7 => ne_sp_of_lt_seven (h _ h7) rfl

/-- What pushing the registers `rs` and then popping into the registers `ds` leaves: in `ds` the pushed values, last in
first out; every other register, the cells that were not pushed to and the rest of the state as before. -/
structure PushedAndPopped (rs ds : List Byte) (s t : State) : Prop where
  values : ds.map (registerGet t) = rs.reverse.map (registerGet s)
  registers : RegistersKeptBut ds s t
  memory : ∀ k, rs.length ≤ k → k < 256 → memRead t (pushAddress s.regs[7] k) = memRead s (pushAddress s.regs[7] k)
  control : ControlKept s t
  output : t.out = s.out

theorem ControlKept.trans {s t u : State} (h : ControlKept s t) (h' : ControlKept t u) : ControlKept s u := by
  obtain ⟨hfl, hhalted, hfault, hpc⟩ := h
  obtain ⟨hfl', hhalted', hfault', hpc'⟩ := h'
  exact ⟨hfl'.trans hfl, hhalted'.trans hhalted, hfault'.trans hfault, hpc'.trans hpc⟩

theorem exec_psh_frame {a : Byte} {s t : State} (h : exec (.psh a) s = .next t) :
    (∀ r, r ≠ 7#8 → registerGet t r = registerGet s r) ∧ ControlKept s t ∧ t.out = s.out := by
  have ha : a.toNat < Config.nregs := of_decide_eq_true ((exec_completes_iff _ s).mp ⟨t, h⟩)
  obtain ⟨t', ht, -, hregs, hcontrol, hout⟩ := exec_psh_registers s ha
  obtain rfl := Host.Outcome.next.inj (ht.symm.trans h)
  exact ⟨fun r hr => hregs r (by simpa using hr), hcontrol, hout⟩

/-- A pop into a register below r7, from a known stack pointer and a known byte there. -/
theorem exec_pop_below_seven {d sp v : Byte} {s t : State} (hd : d ≠ 7#8) (hsp : registerGet s 7#8 = .ok (sp - 1))
    (hv : memRead s (zext9 (sp - 1)) = .ok v) (h : exec (.pop d) s = .next t) :
    registerGet t d = .ok v ∧ registerGet t 7#8 = .ok sp ∧
      (∀ r, r ≠ 7#8 → r ≠ d → registerGet t r = registerGet s r) ∧
      t.mem = s.mem ∧ ControlKept s t ∧ t.out = s.out := by
  have ha : d.toNat < Config.nregs := of_decide_eq_true ((exec_completes_iff _ s).mp ⟨t, h⟩)
  obtain ⟨t', w, ht, hw, hget, hspt⟩ := exec_pop_completes hsp ha
  obtain rfl := Host.Outcome.next.inj (ht.symm.trans h)
  obtain rfl : v = w := Except.ok.inj (hv.symm.trans hw)
  obtain ⟨hregs, hframe⟩ := exec_pop_frame ha h
  exact ⟨hget, BitVec.sub_add_cancel sp 1 ▸ hspt hd, fun r h7 hr => hregs r (by simp [h7, hr]), hframe⟩

/-- A push and a pop around a row of pushes and pops. -/
theorem PushedAndPopped.enclose {rs ds : List Byte} {r d : Byte} {s u w t : State} (hwf : Memory.wf s.mem = true)
    (hrs : ∀ x ∈ r :: rs, x.toNat < 7) (hds : ∀ x ∈ ds ++ [d], x.toNat < 7) (hnew : d ∉ ds)
    (hlen : rs.length < 255) (hpush : exec (.psh r) s = .next u) (hrow : PushedAndPopped rs ds u w)
    (hpop : exec (.pop d) w = .next t) : PushedAndPopped (r :: rs) (ds ++ [d]) s t := by
  obtain ⟨hr, hrs⟩ := List.forall_mem_cons.mp hrs
  obtain ⟨hds, hd⟩ := List.forall_mem_append.mp hds
  have hr7 := ne_sp_of_lt_seven hr
  have hd7 := ne_sp_of_lt_seven (hd d (List.mem_singleton_self d))
  obtain ⟨v, hv, hspu, hmu, hmukept⟩ := exec_psh_memory hwf hpush
  obtain ⟨huregs, hucontrol, huout⟩ := exec_psh_frame hpush
  have hur7 : u.regs[7] = s.regs[7] - 1 := registerGet_sp_ok_iff.mp hspu
  have hspw : registerGet w 7#8 = .ok (s.regs[7] - 1) := (hrow.registers _ (sp_not_mem_of_lt_seven hds)).trans hspu
  have hmw : memRead w (zext9 (s.regs[7] - 1)) = .ok v := by
    have hkept := hrow.memory 255 hlen.le (by decide)
    rw [hur7, pushAddress_255] at hkept
    exact hkept.trans hmu
  obtain ⟨htd, htsp, htregs, htmem, htcontrol, htout⟩ := exec_pop_below_seven hd7 hspw hmw hpop
  refine ⟨?values, ?registers, ?memory, (hucontrol.trans hrow.control).trans htcontrol,
    (htout.trans hrow.output).trans huout⟩
  case values =>
    have hlast : registerGet t d = registerGet s r := by rw [htd, ← hv, huregs r hr7]
    have hinner : ds.map (registerGet t) = ds.map (registerGet w) := List.map_congr_left fun x hx =>
      htregs x (ne_sp_of_lt_seven (hds x hx)) (fun e => hnew (e ▸ hx))
    have houter : rs.reverse.map (registerGet u) = rs.reverse.map (registerGet s) := List.map_congr_left fun x hx =>
      huregs x (ne_sp_of_lt_seven (hrs x (List.mem_reverse.mp hx)))
    rw [List.map_append, hinner, hrow.values, houter, List.reverse_cons, List.map_append, List.map_singleton, hlast,
      List.map_singleton]
  case registers =>
    intro x hx
    obtain ⟨hxds, hxd⟩ : x ∉ ds ∧ x ≠ d := by simpa using hx
    by_cases h7 : x = 7#8
    · rw [h7, htsp, registerGet_sp_ok_iff.mpr rfl]
    · rw [htregs x h7 hxd, hrow.registers x hxds, huregs x h7]
  case memory =>
    intro k hk hk256
    rw [List.length_cons] at hk
    obtain ⟨j, rfl⟩ : ∃ j, k = j + 1 := ⟨k - 1, by omega⟩
    have hinner := hrow.memory j (by omega) (by omega)
    rw [hur7, ← pushAddress_succ] at hinner
    rw [memRead_congr htmem, hinner, hmukept _ (by simpa using pushAddress_ne (Nat.succ_pos j) hk256)]

/-- Pushes and then as many pops into distinct registers complete, last in, first out. -/
theorem execAll_psh_pop_completes : ∀ (rs ds : List Byte) (s : State), Memory.wf s.mem = true →
    (∀ r ∈ rs, r.toNat < 7) → (∀ d ∈ ds, d.toNat < 7) → ds.Nodup → rs.length = ds.length →
    rs.length < 256 →
    ∃ t, execAll (rs.map Instr.psh ++ ds.map Instr.pop) s = .next t ∧ PushedAndPopped rs ds s t
  | [], ds, s, _, _, _, _, hlen, _ => by
    obtain rfl := List.length_eq_zero_iff.mp hlen.symm
    exact ⟨s, rfl, rfl, fun _ _ => rfl, fun _ _ _ => rfl, ⟨rfl, rfl, rfl, rfl⟩, rfl⟩
  | r :: rs, ds, s, hwf, hrs, hds, hnodup, hlen, h256 => by
    rcases List.eq_nil_or_concat' ds with rfl | ⟨ds, d, rfl⟩
    · cases hlen
    rw [List.length_cons] at h256
    obtain ⟨hr, hrs'⟩ := List.forall_mem_cons.mp hrs
    obtain ⟨hds', hd⟩ := List.forall_mem_append.mp hds
    obtain ⟨hnodup', -, hdisjoint⟩ := List.nodup_append.mp hnodup
    have hnew : d ∉ ds := fun hmem => hdisjoint d hmem d (List.mem_singleton_self d) rfl
    obtain ⟨u, -, hu, hwfu, -⟩ := exec_psh_completes hwf (registerGet_sp s) (Nat.lt_succ_of_lt hr)
    obtain ⟨w, hw, hrow⟩ := execAll_psh_pop_completes rs ds u hwfu hrs' hds' hnodup' (by simpa using hlen) (by omega)
    obtain ⟨t, -, ht, -⟩ := exec_pop_completes (registerGet_sp w) (Nat.lt_succ_of_lt (hd d (List.mem_singleton_self d)))
    refine ⟨t, ?_, hrow.enclose hwf hrs hds hnew (by omega) hu ht⟩
    rw [List.map_cons, List.cons_append, execAll_cons_of_next hu, List.map_append, ← List.append_assoc,
      execAll_append_of_next hw, List.map_singleton, execAll_cons_of_next ht, execAll]

/-- There are seven registers to pop into. -/
theorem length_le_seven {ds : List Byte} (hds : ∀ d ∈ ds, d.toNat < 7) (hnodup : ds.Nodup) : ds.length ≤ 7 := by
  have hsub : ds.map BitVec.toNat ⊆ List.range 7 := fun n hn => by
    obtain ⟨d, hd, rfl⟩ := List.mem_map.mp hn
    exact List.mem_range.mpr (hds d hd)
  have hmap : (ds.map BitVec.toNat).Nodup := hnodup.map fun _ _ => BitVec.eq_of_toNat_eq
  simpa using (List.subperm_of_subset hmap hsub).length_le

/-! ## The obligation -/

/-- Settles O18: at most seven pushes, so the row is short enough for its cells to be distinct. -/
theorem pushPopRoundTripIsLifo : Obligations.PushPopRoundTripIsLifo := by
  intro s rs ds hwf hrs hds hnodup hlen
  have h7 := length_le_seven hds hnodup
  obtain ⟨t, ht, hrow⟩ := execAll_psh_pop_completes rs ds s hwf hrs hds hnodup hlen (by omega)
  refine ⟨t, ht, fun k d r hd hr => ?_, hrow.registers _ (sp_not_mem_of_lt_seven hds), hrow.registers, hrow.control,
    hrow.output⟩
  have hvalue := congrArg (·[k]?) hrow.values
  simpa only [List.getElem?_map, hd, hr, Option.map_some, Option.some.injEq] using hvalue

end Sys2Proof.Machine
end

section
/-! SUPPORT. Proofs about reset, the loader and the host's texts (spec/10_state.md R22, R25;
spec/70_reset_and_hazards.md R152; spec/30_encoding.md R64). The idea for the load text: a line is read by what its comment and its trailing spaces
leave, and eight binary digits are read as the sum of their bits. -/

namespace Sys2Proof.Machine

/-! ## Lines of the load text -/

theorem stripComment_append_comment (l c : List Char) : stripComment (l ++ '#' :: c) = stripComment l := by
  induction l with
  | nil => simp [stripComment]
  | cons x l ih => rw [List.cons_append, stripComment, stripComment, ih]

theorem stripComment_eq_self {l : List Char} (h : '#' ∉ l) : stripComment l = l := by
  induction l with
  | nil => rfl
  | cons x l ih =>
    rw [stripComment, if_neg (List.ne_of_not_mem_cons h).symm, ih (List.not_mem_of_not_mem_cons h)]

theorem trimEnd_spaces {l : List Char} (h : ∀ x ∈ l, x = ' ') : trimEnd l = [] := by
  induction l with
  | nil => rfl
  | cons x l ih =>
    obtain ⟨hx, hl⟩ := List.forall_mem_cons.mp h
    simp [trimEnd, ih hl, hx]

theorem trimEnd_eq_self {l : List Char} (h : ' ' ∉ l) : trimEnd l = l := by
  induction l with
  | nil => rfl
  | cons x l ih =>
    rw [trimEnd, ih (List.not_mem_of_not_mem_cons h)]
    cases l with
    | nil => exact if_neg (List.ne_of_not_mem_cons h).symm
    | cons y l => rfl

/-- A line is read by what its comment and its trailing spaces leave. -/
theorem parseLines_cons_congr {l l' : List Char} (h : trimEnd (stripComment l) = trimEnd (stripComment l'))
    (ls : List (List Char)) : parseLines (l :: ls) = parseLines (l' :: ls) := by
  rw [parseLines, parseLines, h]

theorem parseLines_cons_blank {l : List Char} (h : trimEnd (stripComment l) = []) (ls : List (List Char)) :
    parseLines (l :: ls) = parseLines ls := by
  rw [parseLines, h]

/-- A line that is one byte's numeral, without comment or spaces, adds that byte. -/
theorem parseLines_cons_byte {l : List Char} {v : Byte} (hl : parseByte l = some v) (hcomment : '#' ∉ l)
    (hspace : ' ' ∉ l) (ls : List (List Char)) : parseLines (l :: ls) = (parseLines ls).map (v :: ·) := by
  rw [parseLines, stripComment_eq_self hcomment, trimEnd_eq_self hspace]
  cases l with
  | nil => cases hl
  | cons d ds => simp only [hl]; cases parseLines ls <;> rfl

/-- The lines of a text that begins with a whole line. -/
theorem linesOf_line (cs : List Char) : ∀ {l : List Char} (cur : List Char), '\n' ∉ l →
    linesOf cur (l ++ '\n' :: cs) = (cur.reverse ++ l) :: linesOf [] cs
  | [], cur, _ => by simp [linesOf]
  | x :: l, cur, h => by
    rw [List.cons_append, linesOf, if_neg (List.ne_of_not_mem_cons h).symm,
      linesOf_line cs (x :: cur) (List.not_mem_of_not_mem_cons h)]
    simp

/-! ## Binary numerals -/

/-- The digit of a bit. -/
def bitDigit (b : Bool) : Char := if b then '1' else '0'

theorem binaryDigit_bitDigit (b : Bool) : binaryDigit (bitDigit b) = some b := by cases b <;> rfl

theorem binaryValue_map_bitDigit : ∀ (bs : List Bool) (acc : Nat),
    binaryValue acc (bs.map bitDigit) = some (bs.foldl (fun n b => 2 * n + b.toNat) acc)
  | [], _ => rfl
  | b :: bs, acc => by
    rw [List.map_cons, binaryValue, binaryDigit_bitDigit]
    exact binaryValue_map_bitDigit bs _

/-- The bits of a byte, most significant first. -/
def bitsOf (v : Byte) : List Bool := [7, 6, 5, 4, 3, 2, 1, 0].map v.getLsbD

theorem binaryNumeral_eq (v : Byte) : binaryNumeral v = (bitsOf v).map bitDigit := by
  rw [bitsOf, List.map_map]; rfl

theorem foldl_bitsOf (v : Byte) : (bitsOf v).foldl (fun n b => 2 * n + b.toNat) 0 = v.toNat := by
  have hv := v.isLt
  simp only [bitsOf, List.map_cons, List.map_nil, List.foldl_cons, List.foldl_nil, BitVec.getLsbD, Nat.toNat_testBit]
  omega

theorem parseByte_binaryNumeral (v : Byte) : parseByte (binaryNumeral v) = some v := by
  have hlen : (binaryNumeral v).length = 8 := rfl
  rw [parseByte, if_pos hlen, binaryNumeral_eq, binaryValue_map_bitDigit, foldl_bitsOf, Option.map_some,
    BitVec.ofNat_toNat, BitVec.setWidth_eq]

theorem not_mem_binaryNumeral {c : Char} (h0 : c ≠ '0') (h1 : c ≠ '1') (v : Byte) : c ∉ binaryNumeral v := by
  rw [binaryNumeral_eq, List.mem_map]
  rintro ⟨b, -, rfl⟩
  cases b
  · exact h0 rfl
  · exact h1 rfl

/-! ## Decimal numerals -/

theorem digitChar_toNat {n : Nat} (h : n < 10) : (digitChar n).toNat = 48 + n := by
  interval_cases n <;> rfl

theorem digitChar_eq_zero_iff {n : Nat} (h : n < 10) : digitChar n = '0' ↔ n = 0 := by
  refine ⟨fun e => ?_, fun e => e ▸ rfl⟩
  have he := congrArg Char.toNat e
  rw [digitChar_toNat h] at he
  exact Nat.add_left_cancel he

/-- The digits of a byte's numeral: those of its value, the leading zeros left out. -/
theorem decimalNumeral_eq_map (v : Byte) : ∃ ds : List Nat, decimalNumeral v = ds.map digitChar ∧
    (∀ d ∈ ds, d < 10) ∧ ds.foldl (fun n d => 10 * n + d) 0 = v.toNat ∧ ds ≠ [] ∧
    (ds.head? = some 0 → v.toNat = 0) := by
  have hv := v.isLt
  unfold decimalNumeral
  dsimp only
  split_ifs with h1 h2
  · exact ⟨[v.toNat], rfl, by simpa using h1, by simp, by simp, by simp⟩
  · exact ⟨[v.toNat / 10, v.toNat % 10], rfl, by simp; omega, by simp; omega, by simp, by simp; omega⟩
  · exact ⟨[v.toNat / 100, v.toNat / 10 % 10, v.toNat % 10], rfl, by simp; omega, by simp; omega, by simp,
      by simp; omega⟩

theorem foldl_map_digitChar : ∀ (ds : List Nat) (acc : Nat), (∀ d ∈ ds, d < 10) →
    (ds.map digitChar).foldl (fun n c => 10 * n + (c.toNat - 48)) acc = ds.foldl (fun n d => 10 * n + d) acc
  | [], _, _ => rfl
  | d :: ds, acc, h => by
    obtain ⟨hd, hds⟩ := List.forall_mem_cons.mp h
    rw [List.map_cons, List.foldl_cons, List.foldl_cons, digitChar_toNat hd, Nat.add_sub_cancel_left]
    exact foldl_map_digitChar ds _ hds

/-! ## The obligations -/

/-- Settles O45: the four parts at reset. -/
theorem legalStateAtReset : Obligations.LegalStateAtReset :=
  ⟨rfl, Nat.zero_le _, rfl, .inl rfl⟩

/-- Settles O46: the loader writes memory alone, by bytes that keep it canonical. -/
theorem loaderKeepsLegalState : Obligations.LoaderKeepsLegalState := by
  intro image s t hs h
  obtain ⟨-, rfl⟩ := loadImage_eq_some_iff.mp h
  exact ⟨storeBytes_wf hs.memory, hs.pcRange, hs.flags, hs.oneEnd⟩

/-- Settles O47: the empty memory reads as zeros; the rest is stated by `State.reset`. -/
theorem resetLeavesTheStatedValues : Obligations.ResetLeavesTheStatedValues := by
  have hzero : ∀ i : Fin 8, i.val ≤ 6 → State.reset.regs[i] = 0x00#8 := by decide
  refine ⟨fun x hx => memRead_of_le_255 _ hx, fun r hr => ?_, rfl, rfl, rfl, rfl, rfl, rfl⟩
  have hr8 : r.toNat < Config.nregs := lt_nregs_of_le_seven (by omega)
  rw [registerGet_legal _ hr8]
  exact congrArg Except.ok (hzero ⟨r.toNat, hr8⟩ hr)

/-- Settles O48: where the image lies it is read, elsewhere the old memory. -/
theorem loaderPlacesTheImage : Obligations.LoaderPlacesTheImage := by
  refine fun image s hwf => ⟨fun hlen => ?_, fun hlen => if_neg (Nat.not_le.mpr hlen)⟩
  have hload : loadImage image s = some { s with mem := storeBytes s.mem 0 image } := if_pos hlen
  have hget := get_loadImage hwf hload
  refine ⟨_, hload, fun x v hx => ?_, fun x hx => ?_, registersKeptBut_of_regs_eq rfl [], ⟨rfl, rfl, rfl, rfl⟩, rfl⟩
  · obtain ⟨hxlen, -⟩ := List.getElem?_eq_some_iff.mp hx
    rw [memRead_cell _ (hxlen.trans_le hlen), hget, hx, Option.getD_some]
  · by_cases hcell : x.toNat < Config.memSize
    · rw [memRead_cell _ hcell, memRead_cell _ hcell, hget, List.getElem?_eq_none hx, Option.getD_none]
    · rw [memRead_outside _ hcell, memRead_outside _ hcell]

/-- Settles O51: each line of the text is the numeral of its byte, and the empty last line is blank. -/
theorem loadTextIsReadBack : Obligations.LoadTextIsReadBack := by
  intro image
  induction image with
  | nil => rfl
  | cons v vs ih =>
    have hlines : linesOf [] (renderLoadText (v :: vs)) = binaryNumeral v :: linesOf [] (renderLoadText vs) :=
      linesOf_line _ [] (not_mem_binaryNumeral (by decide) (by decide) v)
    rw [parseLoadText, hlines, parseLines_cons_byte (parseByte_binaryNumeral v)
      (not_mem_binaryNumeral (by decide) (by decide) v) (not_mem_binaryNumeral (by decide) (by decide) v)]
    exact congrArg (Option.map (v :: ·)) ih

/-- Settles O52: the comment is stripped, and spaces are trimmed to nothing. -/
theorem commentsAndBlankLinesAreSkipped : Obligations.CommentsAndBlankLinesAreSkipped := by
  refine fun l c ls => ⟨parseLines_cons_congr (by rw [stripComment_append_comment]) ls, fun h => ?_⟩
  have hcomment : '#' ∉ l := fun hmem => absurd (h _ hmem) (by decide)
  exact parseLines_cons_blank (by rw [stripComment_eq_self hcomment, trimEnd_spaces h]) ls

/-- Settles O53: the numeral's digits, read as numbers; the text is a concatenation. -/
theorem outputTextIsDecimalLines : Obligations.OutputTextIsDecimalLines := by
  refine ⟨fun v => ?_, rfl, rfl, fun vs v => by simp [outText]⟩
  obtain ⟨ds, hds, hlt, hvalue, hne, hhead⟩ := decimalNumeral_eq_map v
  rw [hds]
  refine ⟨(foldl_map_digitChar ds 0 hlt).trans hvalue, fun c hc => ?_, by simpa using hne, fun h => ?_⟩
  · obtain ⟨d, hd, rfl⟩ := List.mem_map.mp hc
    have := hlt d hd
    rw [digitChar_toNat this]
    omega
  · obtain ⟨d, hd, hzero⟩ : ∃ d, ds.head? = some d ∧ digitChar d = '0' := by simpa using h
    have hd10 := hlt d (List.mem_of_mem_head? hd)
    exact BitVec.eq_of_toNat_eq (hhead ((digitChar_eq_zero_iff hd10).mp hzero ▸ hd))

end Sys2Proof.Machine
end
